-- ==== Sys2Proof/Word.lean ====
section
/-! DEFINITION. The SIC's two sizes of data: bytes of 8 bits and words of 24 bits (00_scope.md R8). -/

namespace Sys2Proof

/-- A byte, the unit of addressing (R8, R40). -/
abbrev Byte := BitVec 8

/-- A word: 3 consecutive bytes, 24 bits; also the width of every register (R8, R20, R41). -/
abbrev Word := BitVec 24

end Sys2Proof
end

