-- ==== Sys2Proof/Machine/Types.lean ====
section
/-! DEFINITION. The named things of the spec that are not words: the condition code, the device events,
the kinds of access, the fault mark, and the shape of memory. -/

namespace Sys2Proof.Machine

/-- The condition code CC of the status word: the source's `<`, `=`, `>`, and `unset`, the spec's own value for
"no instruction has set CC since launch" (10_state.md R27; DESIGN CHOICE of the spec, D10; log 13). -/
inductive CC where
  | lt
  | eq
  | gt
  | unset
  deriving DecidableEq, Repr, Inhabited

/-- What a device answers to TD (46_io.md R130). -/
inductive Readiness where
  | ready
  | busy
  deriving DecidableEq, Repr, Inhabited

/-- One entry of the I/O history: `(TD, d, ready|busy)`, `(RD, d, b)` or `(WD, d, b)` (46_io.md R130). -/
inductive IOEvent where
  | td (d : Byte) (r : Readiness)
  | rd (d : Byte) (b : Byte)
  | wd (d : Byte) (b : Byte)
  deriving DecidableEq, Repr

/-- The kind of an address fault (20_memory.md R45). -/
inductive AccessKind where
  | fetch
  | read
  | write
  | jump
  deriving DecidableEq, Repr

/-- Which of the two transfers met a device that is not armed (60_exceptions.md R172). -/
inductive TransferKind where
  | rd
  | wd
  deriving DecidableEq, Repr

/-- A recorded model fault with the information R172 lists; `at` is always the address of the faulting
instruction, the PC before the fetch (60_exceptions.md R171). This list is complete (R172). Every one is SAFE: the
model stops where the hardware may go on (R170; log 6). -/
inductive FaultMark where
  /-- Raised by a fetch, a data access or a taken jump whose bytes are not all in memory (R45, R110). -/
  | addressFault (kind : AccessKind) (at_ : Word) (addr : Nat)
  /-- Raised by the fetch of an opcode byte that is not one of the 26 (30_encoding.md R71). -/
  | illegalOpcode (at_ : Word) (op : Byte)
  /-- Raised by JEQ, JGT, JLT while CC is unset (44_jump.md R110). -/
  | ccUnset (at_ : Word)
  /-- Raised by DIV when the word at TA is zero (41_arithmetic.md R93). -/
  | divideByZero (at_ : Word)
  /-- Raised by ADD, SUB, MUL, DIV, TIX under `ARITH_OVERFLOW` = fault only (41_arithmetic.md R90 to R93, R106). -/
  | arithmeticOverflow (at_ : Word)
  /-- Raised by RD, WD on a device that is not armed (46_io.md R135). -/
  | ioNotReady (kind : TransferKind) (at_ : Word) (d : Byte)
  deriving DecidableEq, Repr

/-- Memory: address and byte pairs, addresses strictly rising, no entry equal to what an unlisted address reads
as (the canonical form, `Memory.wf` in Machine/Ops.lean). -/
abbrev Memory := List Host.Cell

end Sys2Proof.Machine
end

