-- ==== Sys2Proof/Config.lean ====
section
/-! DEFINITION. What the spec leaves open (00_scope.md R9): the parameters that are plain data, and the free
values, constants with no body, about which nothing can be proved. -/

namespace Sys2Proof

/-- `BYTE_ORDER`: the order of a word's three bytes in memory (20_memory.md R42, D2; log 1). -/
inductive ByteOrder where
  | big
  | little
  deriving DecidableEq, Repr

/-- `ARITH_OVERFLOW`: what an exact result outside 24 signed bits leads to (41_arithmetic.md R94, D6; log 8). -/
inductive ArithOverflow where
  | wrap
  | fault
  deriving DecidableEq, Repr

/-- `DIV_ROUND`: the rounding of an inexact quotient (41_arithmetic.md R93, D7; log 9). `trunc` is the spec's
default, toward zero; `floor` is the other one the spec names (95_test_vectors.md P3); `other` is any rounding at
all, by the free value `Config.divRoundsUp`. -/
inductive DivRound where
  | trunc
  | floor
  | other
  deriving DecidableEq, Repr

/-- The parameters of R9 that a step reads and no instruction changes (10_state.md R37; log 7). `ret` is `RET`,
the address at which the run is over (70_reset_and_hazards.md R192, R199). -/
structure Params where
  byteOrder     : ByteOrder
  arithOverflow : ArithOverflow
  divRound      : DivRound
  ret           : Word
  deriving DecidableEq, Repr

/-- The parameter `Dev` as plain data (46_io.md R130; log 10): the answers prepared from outside for the next
tests and reads, in the order the processor will ask, and the number of the environment whose free answers
(`Config.devTest`, `Config.devRead`) follow when none is prepared. -/
structure Environment where
  tests  : List Machine.Readiness
  reads  : List Byte
  number : Nat
  deriving DecidableEq, Repr

/-- FREE VALUE. `swImage`: the 24-bit content of SW, a total function of the pair (CC, the rest of SW) and of
nothing else (40_load_store.md R87, D11; log 12). -/
opaque Config.swImage : Machine.CC → Word → Word

/-- FREE VALUE. What environment number `e` answers to `DevTest(d)` after the I/O history so far
(46_io.md R130; log 10). -/
opaque Config.devTest : Nat → List Machine.IOEvent → Byte → Machine.Readiness

/-- FREE VALUE. The byte environment number `e` answers to `DevRead(d)` after the I/O history so far
(46_io.md R130; log 10). -/
opaque Config.devRead : Nat → List Machine.IOEvent → Byte → Byte

/-- FREE VALUE. Under `DIV_ROUND` = other: does the inexact quotient of these two numbers round up
(41_arithmetic.md R93, D7; log 9). -/
opaque Config.divRoundsUp : Int → Int → Bool

end Sys2Proof
end

