-- ==== Sys2Proof/Machine/State.lean ====
section
/-! DEFINITION. The whole state of the machine as plain data (10_state.md), its value after reset, and the
reasons a step can stop. -/

namespace Sys2Proof.Machine

/-- The state (10_state.md, first paragraph): five registers, SW being the pair (`cc`, `swRest`), memory, the
device space as far as it is kept, the fault mark; and the model's own plain data for the parameters of
00_scope.md R9 (`env`, `params`). -/
structure State where
  /-- A, the accumulator (R20, R23). -/
  a : Word
  /-- X, the index register (R20, R24). -/
  x : Word
  /-- L, the linkage register (R20, R25). -/
  l : Word
  /-- PC: between instructions the address of the next one, during one already that address plus 3 (R26). -/
  pc : Word
  /-- CC, the condition code field of SW (R27). -/
  cc : CC
  /-- Everything of SW that is not CC; no instruction changes it (R31; log 12). -/
  swRest : Word
  /-- Memory, in canonical form (R33). -/
  mem : Memory
  /-- The I/O history, oldest event first (R34). -/
  history : List IOEvent
  /-- The codes of the armed devices, rising (R34, 46_io.md R135; log 11). -/
  armed : List Byte
  /-- The parameter `Dev` (R9; the model's own field, log 10). -/
  env : Environment
  /-- The other parameters a step reads (R9, R37; the model's own field, log 7). -/
  params : Params
  /-- The fault mark (R36). -/
  faultMark : Option FaultMark
  deriving DecidableEq, Repr

/-- The machine right after reset. The spec has no reset and gives a launch state in its place (10_state.md R38):
CC unset, history and armed empty, no fault, L = `RET`. What R38 leaves to the launch is a value named in the log:
PC = `ENTRY` = 0 (log 4), `RET` = 0xFFFFFF (log 5), A, X and the rest of SW 0 (log 2), no byte of memory listed
(log 3), no device answer prepared (log 10), the parameters' defaults of 00_scope.md R9. Machine/Launch.lean gives
every other launch state. -/
def State.reset : State where
  a := 0
  x := 0
  l := 0xFFFFFF
  pc := 0
  cc := .unset
  swRest := 0
  mem := []
  history := []
  armed := []
  env := { tests := [], reads := [], number := 0 }
  params := { byteOrder := .big, arithOverflow := .wrap, divRound := .trunc, ret := 0xFFFFFF }
  faultMark := none

/-- A step that ends in a model fault (60_exceptions.md R170). -/
inductive Fault where
  /-- Raised by `State.raise` for a fetch (R45), an unassigned opcode (R71) and every instruction of R172's list,
  and again by a step from a state whose fault mark is set, which takes no step (10_state.md R36). It carries the
  fault's name and information and the state as recorded, the mark set (R170, R171). SAFE: the model stops where the
  hardware may go on (log 6). -/
  | raised (mark : FaultMark) (recorded : State)
  deriving DecidableEq, Repr

/-- A step that is not taken. -/
inductive Refusal where
  /-- Raised by exec's arms alone, for an instruction with no meaning yet. SAFE. No arm raises it. -/
  | notModelled (mnemonic : String)
  /-- Raised by `step` alone: the run is over, PC = `RET` with no fault recorded, and no step is taken; it carries the
  final state (70_reset_and_hazards.md R199). SAFE: nothing is claimed of the hardware there (log 5). -/
  | runOver (final : State)
  deriving DecidableEq, Repr

/-- What a step or a meaning answers. -/
abbrev Result := Host.Outcome State Fault Refusal

end Sys2Proof.Machine
end

