-- ==== Sys2Proof/Machine/Ops.lean ====
section
/-! DEFINITION. The named operations over registers, memory, devices and faults that the meanings are written with
(00_scope.md R13, 20_memory.md, 46_io.md, 60_exceptions.md). -/

namespace Sys2Proof.Machine

/-! ## Numbers (00_scope.md R11) -/

/-- `s(v)`: the signed reading of a word. -/
def signed (v : Word) : Int := v.toInt

/-- `trunc24(z)`: the word whose unsigned reading is `z` modulo 2^24. -/
def trunc24 (z : Int) : Word := BitVec.ofInt 24 z

/-! ## Bytes and words (20_memory.md R41 to R43) -/

/-- The word of three bytes at ascending addresses (R42). -/
def wordOfBytes (o : ByteOrder) (b0 b1 b2 : Byte) : Word :=
  match o with
  | .big => (b0 ++ b1 ++ b2 : BitVec 24)
  | .little => (b2 ++ b1 ++ b0 : BitVec 24)

/-- The byte of a word that stands at its lowest address (R43). -/
def firstByte (o : ByteOrder) (v : Word) : Byte :=
  match o with
  | .big => v.extractLsb' 16 8
  | .little => v.extractLsb' 0 8

/-- The byte of a word that stands at its middle address (R43). -/
def middleByte (v : Word) : Byte := v.extractLsb' 8 8

/-- The byte of a word that stands at its highest address (R43). -/
def lastByte (o : ByteOrder) (v : Word) : Byte :=
  match o with
  | .big => v.extractLsb' 0 8
  | .little => v.extractLsb' 16 8

/-- RMB of a register: its bits [7:0] (00_scope.md R12). -/
def rmb (v : Word) : Byte := v.extractLsb' 0 8

/-- A register with its rightmost byte replaced, bits [23:8] kept (10_state.md R23). -/
def withRmb (v : Word) (b : Byte) : Word := (v.extractLsb' 8 16 ++ b : BitVec 24)

/-! ## Memory (20_memory.md) -/

/-- The highest byte address (00_scope.md R8, R40). -/
def lastAddress : Nat := 32767

/-- An access to `n` bytes at `a` is admitted when its last byte is in memory (R45). -/
abbrev Admitted (a n : Nat) : Prop := a + n - 1 ≤ lastAddress

/-- What a byte that memory does not list reads as: DESIGN CHOICE, unsafe (R38 leaves it unspecified; log 3). -/
def Memory.unlisted : Byte := 0

/-- The byte at an address. -/
def Memory.read (m : Memory) (a : Nat) : Byte :=
  match m with
  | [] => Memory.unlisted
  | c :: t => if c.1 = a then c.2 else Memory.read t a

/-- Memory with one byte written; a byte equal to what an unlisted address reads as is taken off the list, so the
canonical form is kept. -/
def Memory.write (m : Memory) (a : Nat) (b : Byte) : Memory :=
  match m with
  | [] => if b = Memory.unlisted then [] else [(a, b)]
  | c :: t =>
    if a < c.1 then
      if b = Memory.unlisted then c :: t else (a, b) :: c :: t
    else if a = c.1 then
      if b = Memory.unlisted then t else (a, b) :: t
    else c :: Memory.write t a b

/-- The canonical form from address `lo` up: every listed address is `lo` or more, and they rise. -/
def Memory.wfFrom (lo : Nat) (m : Memory) : Bool :=
  match m with
  | [] => true
  | c :: t =>
    decide (lo ≤ c.1) && decide (c.1 ≤ lastAddress) && decide (c.2 ≠ Memory.unlisted) && Memory.wfFrom (c.1 + 1) t

/-- The canonical form of memory: addresses strictly rising and inside 0 .. 32,767, no entry equal to what an
unlisted address reads as. -/
def Memory.wf (m : Memory) : Bool := Memory.wfFrom 0 m

/-- `mem[a]`: one byte of the state's memory. -/
def State.byteAt (s : State) (a : Nat) : Byte := Memory.read s.mem a

/-- `MemRead(a, 3)` of an admitted address: the word at `a` (R41, R42). -/
def State.wordAt (s : State) (a : Nat) : Word :=
  wordOfBytes s.params.byteOrder (s.byteAt a) (s.byteAt (a + 1)) (s.byteAt (a + 2))

/-- `MemWrite(a, 1, b)` of an admitted address (R43). -/
def State.setByte (s : State) (a : Nat) (b : Byte) : State := { s with mem := Memory.write s.mem a b }

/-- `MemWrite(a, 3, v)` of an admitted address (R43). -/
def State.setWord (s : State) (a : Nat) (v : Word) : State :=
  ((s.setByte a (firstByte s.params.byteOrder v)).setByte (a + 1) (middleByte v)).setByte (a + 2)
    (lastByte s.params.byteOrder v)

/-! ## Registers (10_state.md R22 to R27) -/

/-- `A <- v`. -/
def State.setA (s : State) (v : Word) : State := { s with a := v }

/-- `A[7:0] <- b`, bits [23:8] kept (R23). -/
def State.setRmb (s : State) (b : Byte) : State := { s with a := withRmb s.a b }

/-- `X <- v`. -/
def State.setX (s : State) (v : Word) : State := { s with x := v }

/-- `L <- v`. -/
def State.setL (s : State) (v : Word) : State := { s with l := v }

/-- `PC <- v`. -/
def State.setPc (s : State) (v : Word) : State := { s with pc := v }

/-- `CC <- c`. -/
def State.setCC (s : State) (c : CC) : State := { s with cc := c }

/-- SW as a whole: the 24-bit content that STSW stores (R31, 40_load_store.md R87). -/
def State.sw (s : State) : Word := Config.swImage s.cc s.swRest

/-- The address of the instruction that is executing: during it PC holds that address plus 3
(R26, R28). -/
def State.instrAddr (s : State) : Word := s.pc - 3

/-! ## Raising a fault (60_exceptions.md R170, R171)

The machine has no trap entry and no return from one (R175, R176): this is the whole of taking a fault. -/

/-- The state with a fault recorded; nothing else changes (R171). -/
def State.record (s : State) (f : FaultMark) : State := { s with faultMark := some f }

/-- `raise F(info)`: the instruction is abandoned, the fault recorded. -/
def State.raise (s : State) (f : FaultMark) : Result := .fault (.raised f (s.record f))

/-! ## Accesses with their check (20_memory.md R45) -/

/-- `M <- MemRead(ta, 3)` and then the rest of the instruction. -/
def State.readWordThen (s : State) (ta : Nat) (rest : Word → Result) : Result :=
  if Admitted ta 3 then rest (s.wordAt ta) else s.raise (.addressFault .read s.instrAddr ta)

/-- `b <- MemRead(ta, 1)` and then the rest of the instruction. -/
def State.readByteThen (s : State) (ta : Nat) (rest : Byte → Result) : Result :=
  if Admitted ta 1 then rest (s.byteAt ta) else s.raise (.addressFault .read s.instrAddr ta)

/-- `MemWrite(ta, 3, v)`, the whole of a word store. -/
def State.storeWord (s : State) (ta : Nat) (v : Word) : Result :=
  if Admitted ta 3 then .next (s.setWord ta v) else s.raise (.addressFault .write s.instrAddr ta)

/-- `MemWrite(ta, 1, b)`, the whole of a byte store. -/
def State.storeByte (s : State) (ta : Nat) (b : Byte) : Result :=
  if Admitted ta 1 then .next (s.setByte ta b) else s.raise (.addressFault .write s.instrAddr ta)

/-- The check of a taken jump's target, and then the jump with the new PC (44_jump.md R110). -/
def State.targetThen (s : State) (ta : Nat) (rest : Word → Result) : Result :=
  if lastAddress < ta then s.raise (.addressFault .jump s.instrAddr ta) else rest (trunc24 ta)

/-! ## The device environment (46_io.md R130, R135) -/

/-- The device an event is about. -/
def IOEvent.device (e : IOEvent) : Byte :=
  match e with
  | .td d _ => d
  | .rd d _ => d
  | .wd d _ => d

/-- `armed ∪ {d}`, kept rising with no repeats. -/
def armDevice (armed : List Byte) (d : Byte) : List Byte :=
  match armed with
  | [] => [d]
  | e :: t => if d.toNat < e.toNat then d :: e :: t else if d = e then e :: t else e :: armDevice t d

/-- `armed \ {d}`. -/
def disarmDevice (armed : List Byte) (d : Byte) : List Byte := armed.filter (fun e => decide (e ≠ d))

/-- The codes are rising, so equal sets are equal lists. -/
def armedWf (armed : List Byte) : Bool :=
  match armed with
  | [] => true
  | e :: t => t.all (fun f => decide (e.toNat < f.toNat)) && armedWf t

/-- The environment's answer to `DevTest(d)`: the first prepared one, else the free one (log 10). -/
def State.testAnswer (s : State) (d : Byte) : Readiness :=
  match s.env.tests with
  | r :: _ => r
  | [] => Config.devTest s.env.number s.history d

/-- The environment's answer to `DevRead(d)`: the first prepared one, else the free one (log 10). -/
def State.readAnswer (s : State) (d : Byte) : Byte :=
  match s.env.reads with
  | b :: _ => b
  | [] => Config.devRead s.env.number s.history d

/-- The environment after a test was answered: its prepared answer, if it had one, is used up. -/
def Environment.afterTest (e : Environment) : Environment := { e with tests := e.tests.tail }

/-- The environment after a read was answered. -/
def Environment.afterRead (e : Environment) : Environment := { e with reads := e.reads.tail }

/-- The armed devices after a test: a ready answer arms the device, a busy one disarms it (R132, R135). -/
def armedBy (armed : List Byte) (d : Byte) (r : Readiness) : List Byte :=
  match r with
  | .ready => armDevice armed d
  | .busy => disarmDevice armed d

/-- `DevTest(d)` with answer `r`: the answer is used up and appended to the I/O history as `(TD, d, r)`, and the device
is armed or disarmed (R130, R132). -/
def State.devTested (s : State) (d : Byte) (r : Readiness) : State :=
  { s with env := Environment.afterTest s.env, history := s.history ++ [.td d r], armed := armedBy s.armed d r }

/-- `DevRead(d)` with answer `b`: the answer is used up and appended to the I/O history as `(RD, d, b)`, and the device
is disarmed (R130, R133). -/
def State.devReadDone (s : State) (d b : Byte) : State :=
  { s with env := Environment.afterRead s.env, history := s.history ++ [.rd d b], armed := disarmDevice s.armed d }

/-- `DevWrite(d, b)`: appended to the I/O history as `(WD, d, b)`, and the device is disarmed (R130, R134). -/
def State.devWritten (s : State) (d b : Byte) : State :=
  { s with history := s.history ++ [.wd d b], armed := disarmDevice s.armed d }

/-- The check before a transfer: the device must be armed (R135). -/
def State.armedThen (s : State) (kind : TransferKind) (d : Byte) (rest : Result) : Result :=
  if d ∈ s.armed then rest else s.raise (.ioNotReady kind s.instrAddr d)

end Sys2Proof.Machine
end

