-- ==== Sys2Proof/Machine/Flags.lean ====
section
/-! DEFINITION. The condition code, the machine's only flag (10_state.md R30), and the check of an exact result
against 24 signed bits (41_arithmetic.md R94). -/

namespace Sys2Proof.Machine

/-- The CC of a comparison of two words by their signed readings, the left one first (43_compare.md R105, R107). -/
def compareCC (v w : Word) : CC :=
  if signed v < signed w then .lt else if signed v = signed w then .eq else .gt

/-- The CC of a device test: LT ready, EQ busy, never GT (46_io.md R132, 90_conflicts.md C9). -/
def readinessCC (r : Readiness) : CC :=
  match r with
  | .ready => .lt
  | .busy => .eq

/-- The exact result is a 24-bit two's complement number (41_arithmetic.md R94). -/
abbrev Fits (z : Int) : Prop := -8388608 ≤ z ∧ z ≤ 8388607

/-- The exact result is narrowed to 24 bits: under `ARITH_OVERFLOW` = fault one that does not fit raises
ArithmeticOverflow, under wrap its low 24 bits are kept (R90 to R93, R106, D6; log 8). -/
def State.narrowThen (s : State) (z : Int) (rest : Word → Result) : Result :=
  if s.params.arithOverflow = .fault ∧ ¬ Fits z then s.raise (.arithmeticOverflow s.instrAddr) else rest (trunc24 z)

/-- The integer quotient of `n` by `d` (`d` not 0) under `DIV_ROUND` (41_arithmetic.md R93, D7; log 9). -/
def quotient (r : DivRound) (n d : Int) : Int :=
  match r with
  | .trunc => Int.tdiv n d
  | .floor => Int.fdiv n d
  | .other => if Int.fmod n d ≠ 0 ∧ Config.divRoundsUp n d = true then Int.fdiv n d + 1 else Int.fdiv n d

end Sys2Proof.Machine
end

