-- ==== Sys2Proof/Syntax.lean ====
section
/-! DEFINITION. The 26 instructions of the SIC as syntax (30_encoding.md R67), one constructor per row of
spec/opcode_table.json. -/

namespace Sys2Proof

/-- The two addressing modes, by the x bit (30_encoding.md R63). -/
inductive AddrMode where
  | direct
  | indexed
  deriving DecidableEq, Repr

/-- The operand `m` or `m,X` of an instruction: the mode and the address field, an unsigned byte address
(30_encoding.md R61, R63, R74). -/
structure Operand where
  mode    : AddrMode
  address : Nat
  deriving DecidableEq, Repr

/-- The instruction set (30_encoding.md R67). -/
inductive Instr where
  | lda (m : Operand)
  | ldch (m : Operand)
  | ldl (m : Operand)
  | ldx (m : Operand)
  | sta (m : Operand)
  | stch (m : Operand)
  | stl (m : Operand)
  | stsw (m : Operand)
  | stx (m : Operand)
  | add (m : Operand)
  | sub (m : Operand)
  | mul (m : Operand)
  | div (m : Operand)
  | and (m : Operand)
  | or (m : Operand)
  | comp (m : Operand)
  | tix (m : Operand)
  | j (m : Operand)
  | jeq (m : Operand)
  | jgt (m : Operand)
  | jlt (m : Operand)
  | jsub (m : Operand)
  | rsub
  | td (m : Operand)
  | rd (m : Operand)
  | wd (m : Operand)
  deriving DecidableEq, Repr

end Sys2Proof
end

