-- ==== Sys2Proof/Machine/Operands.lean ====
section
/-! DEFINITION. The target address (30_encoding.md R63, R64): both modes of the one operand form. The machine has no
other operand form (R66). -/

namespace Sys2Proof.Machine

/-- What the mode adds to the address field: nothing, or (X) read unsigned over all 24 bits (R63, R64, D4). -/
def indexOf (d : AddrMode) (s : State) : Nat :=
  match d with
  | .direct => 0
  | .indexed => s.x.toNat

/-- TA, a natural number that is never reduced (R64, R13). X is the one the instruction starts with, also for LDX and
TIX (D20; log 21). -/
def targetAddr (m : Operand) (s : State) : Nat := m.address + indexOf m.mode s

end Sys2Proof.Machine
end

