-- ==== Sys2Proof/Machine/Arithmetic.lean ====
section
/-! DEFINITION. The arithmetic instructions (41_arithmetic.md). -/

namespace Sys2Proof.Machine

/-- ADD (R90): `A <- trunc24(s(A) + s(M))`. -/
def execAdd (m : Operand) (s : State) : Result :=
  s.readWordThen (targetAddr m s) fun v =>
    s.narrowThen (signed s.a + signed v) fun r => .next (s.setA r)

/-- SUB (R91): `A <- trunc24(s(A) - s(M))`. -/
def execSub (m : Operand) (s : State) : Result :=
  s.readWordThen (targetAddr m s) fun v =>
    s.narrowThen (signed s.a - signed v) fun r => .next (s.setA r)

/-- MUL (R92): `A <- trunc24(s(A) * s(M))`; the high half is discarded. -/
def execMul (m : Operand) (s : State) : Result :=
  s.readWordThen (targetAddr m s) fun v =>
    s.narrowThen (signed s.a * signed v) fun r => .next (s.setA r)

/-- DIV (R93): `A <- trunc24(s(A) / s(M))`, DivideByZero when the divisor is 0. -/
def execDiv (m : Operand) (s : State) : Result :=
  s.readWordThen (targetAddr m s) fun v =>
    if signed v = 0 then s.raise (.divideByZero s.instrAddr)
    else s.narrowThen (quotient s.params.divRound (signed s.a) (signed v)) fun r => .next (s.setA r)

end Sys2Proof.Machine
end

