-- ==== Sys2Proof/Machine/Compare.lean ====
section
/-! DEFINITION. The compare instructions (43_compare.md). -/

namespace Sys2Proof.Machine

/-- COMP (R105): CC from A against the word at TA. -/
def execComp (m : Operand) (s : State) : Result :=
  s.readWordThen (targetAddr m s) fun v => .next (s.setCC (compareCC s.a v))

/-- TIX (R106): X is incremented, then CC from the new X against the word at TA, TA formed from the old X. -/
def execTix (m : Operand) (s : State) : Result :=
  s.readWordThen (targetAddr m s) fun v =>
    s.narrowThen (signed s.x + 1) fun r => .next ((s.setX r).setCC (compareCC r v))

end Sys2Proof.Machine
end

