-- ==== Sys2Proof/Machine/InputOutput.lean ====
section
/-! DEFINITION. The I/O instructions (46_io.md). The device code is the one byte at TA (R131). -/

namespace Sys2Proof.Machine

/-- TD (R132): CC from the answer, which arms or disarms the device. -/
def execTd (m : Operand) (s : State) : Result :=
  s.readByteThen (targetAddr m s) fun d =>
    .next ((s.devTested d (s.testAnswer d)).setCC (readinessCC (s.testAnswer d)))

/-- RD (R133): one byte from an armed device into `A[7:0]`. -/
def execRd (m : Operand) (s : State) : Result :=
  s.readByteThen (targetAddr m s) fun d =>
    s.armedThen .rd d (.next ((s.devReadDone d (s.readAnswer d)).setRmb (s.readAnswer d)))

/-- WD (R134): one byte from `A[7:0]` to an armed device. -/
def execWd (m : Operand) (s : State) : Result :=
  s.readByteThen (targetAddr m s) fun d =>
    s.armedThen .wd d (.next (s.devWritten d (rmb s.a)))

end Sys2Proof.Machine
end

