-- ==== Sys2Proof/Machine/Jump.lean ====
section
/-! DEFINITION. The jump instructions (44_jump.md). -/

namespace Sys2Proof.Machine

/-- A taken jump to `ta` (R110). -/
def State.jumpTo (s : State) (ta : Nat) : Result := s.targetThen ta fun p => .next (s.setPc p)

/-- A jump taken when CC is `c` (R110): CCUnset first, a jump not taken does not check its target and leaves PC at the
following instruction. -/
def State.jumpWhen (s : State) (c : CC) (ta : Nat) : Result :=
  if s.cc = .unset then s.raise (.ccUnset s.instrAddr) else if s.cc = c then s.jumpTo ta else .next s

/-- J (R111). -/
def execJ (m : Operand) (s : State) : Result := s.jumpTo (targetAddr m s)

/-- JEQ (R112). -/
def execJeq (m : Operand) (s : State) : Result := s.jumpWhen .eq (targetAddr m s)

/-- JGT (R113). -/
def execJgt (m : Operand) (s : State) : Result := s.jumpWhen .gt (targetAddr m s)

/-- JLT (R114). -/
def execJlt (m : Operand) (s : State) : Result := s.jumpWhen .lt (targetAddr m s)

end Sys2Proof.Machine
end

