-- ==== Sys2Proof/Machine/LoadStore.lean ====
section
/-! DEFINITION. The load and store instructions (40_load_store.md). -/

namespace Sys2Proof.Machine

/-- LDA (R80): `A <- MemRead(TA, 3)`. -/
def execLda (m : Operand) (s : State) : Result :=
  s.readWordThen (targetAddr m s) fun v => .next (s.setA v)

/-- LDCH (R81): `A <- A[23:8] ‖ MemRead(TA, 1)`. -/
def execLdch (m : Operand) (s : State) : Result :=
  s.readByteThen (targetAddr m s) fun b => .next (s.setRmb b)

/-- LDL (R82): `L <- MemRead(TA, 3)`. -/
def execLdl (m : Operand) (s : State) : Result :=
  s.readWordThen (targetAddr m s) fun v => .next (s.setL v)

/-- LDX (R83): `X <- MemRead(TA, 3)`, TA formed from the old X. -/
def execLdx (m : Operand) (s : State) : Result :=
  s.readWordThen (targetAddr m s) fun v => .next (s.setX v)

/-- STA (R84): `MemWrite(TA, 3, A)`. -/
def execSta (m : Operand) (s : State) : Result := s.storeWord (targetAddr m s) s.a

/-- STCH (R85): `MemWrite(TA, 1, A[7:0])`. -/
def execStch (m : Operand) (s : State) : Result := s.storeByte (targetAddr m s) (rmb s.a)

/-- STL (R86): `MemWrite(TA, 3, L)`. -/
def execStl (m : Operand) (s : State) : Result := s.storeWord (targetAddr m s) s.l

/-- STSW (R87): `MemWrite(TA, 3, swImage(CC, swRest))`, also while CC is unset. -/
def execStsw (m : Operand) (s : State) : Result := s.storeWord (targetAddr m s) s.sw

/-- STX (R88): `MemWrite(TA, 3, X)`. -/
def execStx (m : Operand) (s : State) : Result := s.storeWord (targetAddr m s) s.x

end Sys2Proof.Machine
end

