-- ==== Sys2Proof/Machine/Logical.lean ====
section
/-! DEFINITION. The logical instructions (42_logical.md). -/

namespace Sys2Proof.Machine

/-- AND (R100): bit by bit over all 24 bits. -/
def execAnd (m : Operand) (s : State) : Result :=
  s.readWordThen (targetAddr m s) fun v => .next (s.setA (s.a &&& v))

/-- OR (R101): inclusive, bit by bit over all 24 bits. -/
def execOr (m : Operand) (s : State) : Result :=
  s.readWordThen (targetAddr m s) fun v => .next (s.setA (s.a ||| v))

end Sys2Proof.Machine
end

