-- ==== Sys2Proof/Machine/Subroutine.lean ====
section
/-! DEFINITION. The subroutine instructions (45_subroutine.md). -/

namespace Sys2Proof.Machine

/-- JSUB (R120): the target is checked first; then `L <- PC`, the return address, and `PC <- TA`. -/
def execJsub (m : Operand) (s : State) : Result :=
  s.targetThen (targetAddr m s) fun p => .next ((s.setL s.pc).setPc p)

/-- RSUB (R121): `PC <- L`, all 24 bits, unchecked. -/
def execRsub (s : State) : Result := .next (s.setPc s.l)

end Sys2Proof.Machine
end

