-- ==== Sys2Proof/Machine/Dispatch.lean ====
section
/-! DEFINITION. Which meaning each instruction has, one arm per constructor. The state is the one after the fetch: PC
already names the next instruction (10_state.md R26, R28). -/

namespace Sys2Proof.Machine

def exec (i : Instr) (s : State) : Host.Outcome State Fault Refusal :=
  match i with
  | .lda m => Sys2Proof.Machine.execLda m s
  | .ldch m => Sys2Proof.Machine.execLdch m s
  | .ldl m => Sys2Proof.Machine.execLdl m s
  | .ldx m => Sys2Proof.Machine.execLdx m s
  | .sta m => Sys2Proof.Machine.execSta m s
  | .stch m => Sys2Proof.Machine.execStch m s
  | .stl m => Sys2Proof.Machine.execStl m s
  | .stsw m => Sys2Proof.Machine.execStsw m s
  | .stx m => Sys2Proof.Machine.execStx m s
  | .add m => Sys2Proof.Machine.execAdd m s
  | .sub m => Sys2Proof.Machine.execSub m s
  | .mul m => Sys2Proof.Machine.execMul m s
  | .div m => Sys2Proof.Machine.execDiv m s
  | .and m => Sys2Proof.Machine.execAnd m s
  | .or m => Sys2Proof.Machine.execOr m s
  | .comp m => Sys2Proof.Machine.execComp m s
  | .tix m => Sys2Proof.Machine.execTix m s
  | .j m => Sys2Proof.Machine.execJ m s
  | .jeq m => Sys2Proof.Machine.execJeq m s
  | .jgt m => Sys2Proof.Machine.execJgt m s
  | .jlt m => Sys2Proof.Machine.execJlt m s
  | .jsub m => Sys2Proof.Machine.execJsub m s
  | .rsub => Sys2Proof.Machine.execRsub s
  | .td m => Sys2Proof.Machine.execTd m s
  | .rd m => Sys2Proof.Machine.execRd m s
  | .wd m => Sys2Proof.Machine.execWd m s

end Sys2Proof.Machine
end

