-- ==== Sys2Proof/WellFormed.lean ====
section
/-! DEFINITION. Which instructions have an encoding: those whose address fits the 15-bit field
(30_encoding.md R61, R74). -/

namespace Sys2Proof

/-- The address field is 15 bits wide, so an operand's address is 0 to 32,767 (30_encoding.md R61, R74). -/
def Operand.wf (m : Operand) : Bool := decide (m.address ≤ 32767)

/-- An instruction's operand: every instruction has one, but RSUB (30_encoding.md R72). -/
def Instr.operand? (i : Instr) : Option Operand :=
  match i with
  | .lda m | .ldch m | .ldl m | .ldx m | .sta m | .stch m | .stl m | .stsw m | .stx m => some m
  | .add m | .sub m | .mul m | .div m | .and m | .or m | .comp m | .tix m => some m
  | .j m | .jeq m | .jgt m | .jlt m | .jsub m => some m
  | .rsub => none
  | .td m | .rd m | .wd m => some m

/-- An instruction is well formed when its operand, if it has one, is. -/
def Instr.wf (i : Instr) : Bool :=
  match i.operand? with
  | some m => m.wf
  | none => true

end Sys2Proof
end

