-- ==== Sys2Proof/Decode.lean ====
section
/-! DEFINITION. Decoding of the one 24-bit format (30_encoding.md R60 to R62, R67), total on any bytes and
rejecting by name, and the encoder. -/

namespace Sys2Proof

/-- Why bytes are no instruction. -/
inductive DecodeError where
  /-- The opcode byte is not one of the 26 assigned ones (30_encoding.md R71). -/
  | unassigned (op : Byte)
  /-- Fewer than the 3 bytes an instruction takes (30_encoding.md R73). -/
  | truncated (have_ : Nat)
  deriving DecidableEq, Repr

/-! ## The fields of an instruction word (R61) -/

/-- opcode = w[23:16]. -/
def opcodeField (w : Word) : Byte := w.extractLsb' 16 8

/-- x = w[15]: 0 direct, 1 indexed. -/
def modeField (w : Word) : AddrMode := if w.getLsbD 15 then .indexed else .direct

/-- address = w[14:0], an unsigned byte address. -/
def addressField (w : Word) : Nat := (w.extractLsb' 0 15).toNat

/-- The operand an instruction word carries. -/
def operandField (w : Word) : Operand := { mode := modeField w, address := addressField w }

/-! ## The opcode map (R67) -/

/-- The instruction of an opcode byte with operand `m`; RSUB drops it (R72). -/
def decodeOpcode (op : Byte) (m : Operand) : Except DecodeError Instr :=
  match op.toNat with
  | 0x00 => .ok (.lda m)
  | 0x04 => .ok (.ldx m)
  | 0x08 => .ok (.ldl m)
  | 0x0C => .ok (.sta m)
  | 0x10 => .ok (.stx m)
  | 0x14 => .ok (.stl m)
  | 0x18 => .ok (.add m)
  | 0x1C => .ok (.sub m)
  | 0x20 => .ok (.mul m)
  | 0x24 => .ok (.div m)
  | 0x28 => .ok (.comp m)
  | 0x2C => .ok (.tix m)
  | 0x30 => .ok (.jeq m)
  | 0x34 => .ok (.jgt m)
  | 0x38 => .ok (.jlt m)
  | 0x3C => .ok (.j m)
  | 0x40 => .ok (.and m)
  | 0x44 => .ok (.or m)
  | 0x48 => .ok (.jsub m)
  | 0x4C => .ok .rsub
  | 0x50 => .ok (.ldch m)
  | 0x54 => .ok (.stch m)
  | 0xD8 => .ok (.rd m)
  | 0xDC => .ok (.wd m)
  | 0xE0 => .ok (.td m)
  | 0xE8 => .ok (.stsw m)
  | _ => .error (.unassigned op)

/-- The instruction a word stands for (R61, R67, R71). -/
def decodeWord (w : Word) : Except DecodeError Instr := decodeOpcode (opcodeField w) (operandField w)

/-- Three bytes at ascending addresses as one word, the opcode byte first (R62). -/
def wordOfCode (b0 b1 b2 : Byte) : Word := (b0 ++ b1 ++ b2 : BitVec 24)

/-- The first instruction of a stream of bytes and the bytes after it: always exactly 3 bytes (R73). -/
def decodeBytes (bs : List Byte) : Except DecodeError (Instr × List Byte) :=
  match bs with
  | b0 :: b1 :: b2 :: rest =>
    match decodeWord (wordOfCode b0 b1 b2) with
    | .ok i => .ok (i, rest)
    | .error e => .error e
  | short => .error (.truncated short.length)

/-! ## The encoder (R62, R67) -/

/-- The opcode byte of each instruction (R67; ADD, TD and STSW as R68 restores them, PRESUMED for TD, log 16). -/
def Instr.opcode (i : Instr) : Byte :=
  match i with
  | .lda _ => 0x00
  | .ldch _ => 0x50
  | .ldl _ => 0x08
  | .ldx _ => 0x04
  | .sta _ => 0x0C
  | .stch _ => 0x54
  | .stl _ => 0x14
  | .stsw _ => 0xE8
  | .stx _ => 0x10
  | .add _ => 0x18
  | .sub _ => 0x1C
  | .mul _ => 0x20
  | .div _ => 0x24
  | .and _ => 0x40
  | .or _ => 0x44
  | .comp _ => 0x28
  | .tix _ => 0x2C
  | .j _ => 0x3C
  | .jeq _ => 0x30
  | .jgt _ => 0x34
  | .jlt _ => 0x38
  | .jsub _ => 0x48
  | .rsub => 0x4C
  | .td _ => 0xE0
  | .rd _ => 0xD8
  | .wd _ => 0xDC

/-- The x bit of a mode (R63). -/
def AddrMode.bit (d : AddrMode) : BitVec 1 :=
  match d with
  | .direct => 0
  | .indexed => 1

/-- Bits 15..0 of an instruction word: x and address, or zeros for RSUB (R61, R72). -/
def Instr.operandBits (i : Instr) : BitVec 16 :=
  match i.operand? with
  | some m => (m.mode.bit ++ BitVec.ofNat 15 m.address : BitVec 16)
  | none => 0

/-- The word of an instruction: opcode, x, address from the left (R61). -/
def encode (i : Instr) : Word := (i.opcode ++ i.operandBits : BitVec 24)

/-- The three bytes of an instruction at ascending addresses (R62). -/
def encodeBytes (i : Instr) : List Byte :=
  [(encode i).extractLsb' 16 8, (encode i).extractLsb' 8 8, (encode i).extractLsb' 0 8]

/-! ## The host's question -/

/-- The instruction the decoder reads from a row of spec/opcode_table.json: the table numbers the 24 bits of the
one instruction word, bit 0 its least significant, so the word's three bytes are laid out with the opcode byte at
the lowest address (R62) and given to the decoder. -/
def decodeTableWord (nbits w : Nat) : Option Instr :=
  let v : Word := BitVec.ofNat 24 (w % 2 ^ nbits)
  match decodeBytes [v.extractLsb' 16 8, v.extractLsb' 8 8, v.extractLsb' 0 8] with
  | .ok (i, _) => some i
  | .error _ => none

end Sys2Proof
end

