-- ==== Sys2Proof/Machine/Fetch.lean ====
section
/-! DEFINITION. The parts of a step before the instruction's own meaning (10_state.md R28). -/

namespace Sys2Proof.Machine

/-- The run is over: PC = `RET` at an instruction boundary and no fault recorded (70_reset_and_hazards.md R199). -/
abbrev State.Final (s : State) : Prop := s.faultMark = none ∧ s.pc = s.params.ret

/-- The word fetched at PC, an ordinary 3-byte read; none when its three bytes are not all in memory
(20_memory.md R45, R55). -/
def State.fetchWord (s : State) : Option Word :=
  if Admitted s.pc.toNat 3 then some (s.wordAt s.pc.toNat) else none

/-- `PC <- trunc24(a + 3)` with `a` = u(PC) (R28). -/
def State.advance (s : State) : State := s.setPc (trunc24 (s.pc.toNat + 3))

/-- The fault of a word that is no instruction: IllegalOpcode with the instruction's address and the opcode byte
(30_encoding.md R71). -/
def illegal (at_ w : Word) : FaultMark := .illegalOpcode at_ (opcodeField w)

/-- The state with a word placed where the next instruction is fetched, in the state's byte order. -/
def State.placeAtPc (s : State) (w : Word) : State :=
  if Admitted s.pc.toNat 3 then s.setWord s.pc.toNat w else s

end Sys2Proof.Machine
end

