-- ==== Sys2Proof/Machine/Step.lean ====
section
/-! DEFINITION. One step of the processor, one instruction (10_state.md R28). -/

namespace Sys2Proof.Machine

/-- One step (R28): from a state with a fault recorded none is taken and the fault stands (R36); none when the run is
over (70_reset_and_hazards.md R199); else the three bytes at PC are fetched, PC advances by 3, the word is decoded and
the instruction's meaning runs. At most one fault, in the order of 60_exceptions.md R174. -/
def step (s : State) : Host.Outcome State Fault Refusal :=
  match s.faultMark with
  | some f => s.raise f
  | none =>
    if s.Final then .refused (.runOver s)
    else
      match s.fetchWord with
      | none => s.raise (.addressFault .fetch s.pc s.pc.toNat)
      | some w =>
        match decodeWord w with
        | .error _ => s.advance.raise (illegal s.pc w)
        | .ok i => exec i s.advance

/-- `s` with the instruction word `w` (numbered as spec/opcode_table.json numbers its 24 bits) in the three bytes at
PC, so that the next step runs it. It stands for the host's loading of a program (70_reset_and_hazards.md R201;
log 19). A state whose PC is not in memory, is `RET` or has a fault recorded fetches nothing, and stays so. -/
def State.withFetchWord (s : State) (nbits w : Nat) : State := s.placeAtPc (BitVec.ofNat 24 (w % 2 ^ nbits))

end Sys2Proof.Machine
end

