-- ==== Sys2Proof/Machine/Launch.lean ====
section
/-! DEFINITION. The launch of a run, which the spec has in place of a reset (70_reset_and_hazards.md R190 to R192):
every launch state, of which `State.reset` is one. -/

namespace Sys2Proof.Machine

/-- What the host chooses before a run: `ENTRY`, `RET`, `INIT`, `Dev` and the other parameters (00_scope.md R9), and
the loader image, a list of address and byte (30_encoding.md R79). -/
structure Launch where
  entry         : Nat
  ret           : Word
  initA         : Word
  initX         : Word
  initSwRest    : Word
  initMem       : Memory
  image         : List Host.Cell
  env           : Environment
  byteOrder     : ByteOrder
  arithOverflow : ArithOverflow
  divRound      : DivRound
  deriving DecidableEq, Repr

/-- Memory with the bytes of the loader image at their addresses (R79, R190). DESIGN CHOICE: where the image lists more
than one byte for an address, the later cell of the list stands there; the spec is silent on overlap (log 27). -/
def loadImage (m : Memory) (image : List Host.Cell) : Memory :=
  match image with
  | [] => m
  | c :: t => loadImage (Memory.write m c.1 c.2) t

/-- A launch the spec admits: `ENTRY` is at most 32,765 and the program fits in memory (R191,
93_implementation_defined.md U20); `INIT`'s memory is in canonical form. -/
def Launch.admitted (p : Launch) : Bool :=
  decide (p.entry ≤ 32765) && p.image.all (fun c => decide (c.1 ≤ lastAddress)) && Memory.wf p.initMem

/-- The launch state (10_state.md R38). -/
def Launch.state (p : Launch) : State where
  a := p.initA
  x := p.initX
  l := p.ret
  pc := trunc24 p.entry
  cc := .unset
  swRest := p.initSwRest
  mem := loadImage p.initMem p.image
  history := []
  armed := []
  env := p.env
  params := { byteOrder := p.byteOrder, arithOverflow := p.arithOverflow, divRound := p.divRound, ret := p.ret }
  faultMark := none

/-- The launch whose state is `State.reset`: no program, every open value at the one the log names. -/
def bareLaunch : Launch where
  entry := 0
  ret := 0xFFFFFF
  initA := 0
  initX := 0
  initSwRest := 0
  initMem := []
  image := []
  env := { tests := [], reads := [], number := 0 }
  byteOrder := .big
  arithOverflow := .wrap
  divRound := .trunc

end Sys2Proof.Machine
end

