-- ==== Sys2Proof/Machine/Assembler.lean ====
section
/-! DEFINITION. The assembler's notation (30_encoding.md R74 to R79) as a translation from source lines to a loader
image. It has no semantics of its own: the machine runs the bytes (00_scope.md R17; log 22). -/

namespace Sys2Proof.Machine

/-- The parts of a source line (R74). How a line of text is cut into them the spec does not say. -/
structure SourceLine where
  label   : Option String
  op      : String
  operand : Option String
  comment : Option String
  deriving DecidableEq, Repr

/-- What one line asks for (R67, R75). -/
inductive Stmt where
  | instr (mnemonic : String) (symbol : String) (mode : AddrMode)
  | rsub
  | start (value : Option Nat)
  | finish (symbol : Option String)
  | byte (bytes : List Byte)
  | word (value : Int)
  | resb (count : Nat)
  | resw (count : Nat)
  deriving DecidableEq, Repr

/-- Why a source program is refused (93_implementation_defined.md U20 for `outOfMemory`; log 22 for the rest). -/
inductive AsmError where
  /-- The operation or its operand is not one of R67, R75. -/
  | badLine (op : String)
  /-- A symbol that no line labels. -/
  | undefinedSymbol (symbol : String)
  /-- A symbol that two lines label. -/
  | duplicateSymbol (symbol : String)
  /-- A symbol, an origin, an entry point or a byte beyond memory. -/
  | outOfMemory
  deriving DecidableEq, Repr

/-- An assembled program: where execution begins (70_reset_and_hazards.md R191) and the loader image (R79). -/
structure Program where
  entry : Nat
  image : List Host.Cell
  deriving DecidableEq, Repr

/-! ## Operands (R74, R76, R78) -/

/-- The value of a digit. -/
def digitOf (c : Char) : Option Nat :=
  let n := c.toNat
  if 48 ≤ n ∧ n ≤ 57 then some (n - 48) else if 65 ≤ n ∧ n ≤ 70 then some (n - 55) else none

/-- A numeral's value in a base, after `acc`. -/
def numeralFrom (base acc : Nat) (cs : List Char) : Option Nat :=
  match cs with
  | [] => some acc
  | c :: t =>
    match digitOf c with
    | some d => if d < base then numeralFrom base (acc * base + d) t else none
    | none => none

/-- A numeral of at least one digit. -/
def numeral (base : Nat) (cs : List Char) : Option Nat := if cs = [] then none else numeralFrom base 0 cs

/-- A decimal integer, negative ones allowed (R75, R78; 91_not_in_source.md N19). -/
def integer (cs : List Char) : Option Int :=
  match cs with
  | '-' :: t => (numeral 10 t).map fun n => -(n : Int)
  | _ => (numeral 10 cs).map fun n => (n : Int)

/-- The characters up to the closing quote, which ends the operand. -/
def quoted (cs : List Char) : Option (List Char) :=
  match cs.getLast? with
  | some c => if c.toNat = 39 then some cs.dropLast else none
  | none => none

/-- One byte per character, its ASCII code (R76). -/
def charBytes (cs : List Char) : Option (List Byte) :=
  match cs with
  | [] => some []
  | c :: t => if c.toNat < 128 then (charBytes t).map (BitVec.ofNat 8 c.toNat :: ·) else none

/-- One byte per pair of hexadecimal digits (R76). -/
def hexBytes (cs : List Char) : Option (List Byte) :=
  match cs with
  | [] => some []
  | [_] => none
  | c :: d :: t =>
    match numeral 16 [c, d] with
    | some n => (hexBytes t).map (BitVec.ofNat 8 n :: ·)
    | none => none

/-- A BYTE constant `C'...'` or `X'...'` (R76). -/
def byteConstant (cs : List Char) : Option (List Byte) :=
  match cs with
  | k :: q :: t =>
    if q.toNat = 39 then
      if k = 'C' then (quoted t).bind charBytes else if k = 'X' then (quoted t).bind hexBytes else none
    else none
  | _ => none

/-- The characters of a symbol before a `,X` that ends the operand, and the mode it selects (R74). DESIGN CHOICE: any
characters make a symbol, of any length, and only the two characters `,X` at the very end of the operand, with no blank
between or after them, select indexed mode; 91_not_in_source.md N19 leaves both open (log 22). -/
def symbolAndMode (cs : List Char) : List Char × AddrMode :=
  match cs with
  | [] => ([], .direct)
  | [',', 'X'] => ([], .indexed)
  | c :: t => (c :: (symbolAndMode t).1, (symbolAndMode t).2)

/-- An instruction's operand: a symbol and the mode. -/
def operandOf (text : String) : String × AddrMode :=
  (String.ofList (symbolAndMode text.toList).1, (symbolAndMode text.toList).2)

/-! ## Lines (R67, R75) -/

/-- The instruction of a mnemonic that takes an operand (R67). -/
def instrOf (mnemonic : String) (m : Operand) : Option Instr :=
  match mnemonic with
  | "LDA" => some (.lda m)
  | "LDCH" => some (.ldch m)
  | "LDL" => some (.ldl m)
  | "LDX" => some (.ldx m)
  | "STA" => some (.sta m)
  | "STCH" => some (.stch m)
  | "STL" => some (.stl m)
  | "STSW" => some (.stsw m)
  | "STX" => some (.stx m)
  | "ADD" => some (.add m)
  | "SUB" => some (.sub m)
  | "MUL" => some (.mul m)
  | "DIV" => some (.div m)
  | "AND" => some (.and m)
  | "OR" => some (.or m)
  | "COMP" => some (.comp m)
  | "TIX" => some (.tix m)
  | "J" => some (.j m)
  | "JEQ" => some (.jeq m)
  | "JGT" => some (.jgt m)
  | "JLT" => some (.jlt m)
  | "JSUB" => some (.jsub m)
  | "TD" => some (.td m)
  | "RD" => some (.rd m)
  | "WD" => some (.wd m)
  | _ => none

/-- A directive's statement (R75): START's operand is hexadecimal, the others' decimal (R78). -/
def directiveOf (op : String) (operand : Option String) : Option Stmt :=
  match op, operand with
  | "START", none => some (.start none)
  | "START", some t => (numeral 16 t.toList).map fun n => .start (some n)
  | "END", o => some (.finish o)
  | "BYTE", some t => (byteConstant t.toList).map .byte
  | "WORD", some t => (integer t.toList).map .word
  | "RESB", some t => (numeral 10 t.toList).map .resb
  | "RESW", some t => (numeral 10 t.toList).map .resw
  | _, _ => none

/-- A line's statement: a directive, RSUB alone, or a mnemonic with its operand (R74). -/
def SourceLine.stmt (ln : SourceLine) : Except AsmError Stmt :=
  match directiveOf ln.op ln.operand with
  | some st => .ok st
  | none =>
    match ln.op, ln.operand with
    | "RSUB", none => .ok .rsub
    | op, some t =>
      if (instrOf op { mode := .direct, address := 0 }).isSome then .ok (.instr op (operandOf t).1 (operandOf t).2)
      else .error (.badLine op)
    | op, none => .error (.badLine op)

/-- How far a statement moves the address: the bytes it generates or reserves (R75). -/
def Stmt.size (st : Stmt) : Nat :=
  match st with
  | .instr _ _ _ => 3
  | .rsub => 3
  | .start _ => 0
  | .finish _ => 0
  | .byte bs => bs.length
  | .word _ => 3
  | .resb n => n
  | .resw n => 3 * n

/-! ## The two passes -/

/-- A statement at its address, with its label. -/
structure Placed where
  label   : Option String
  address : Nat
  stmt    : Stmt
  deriving DecidableEq, Repr

/-- Each line at its address from `at_` on; START sets the next line's address, END ends the source program (R75).
DESIGN CHOICE: START may stand on any line and on several, also going back over bytes already generated; one with no
operand leaves the address as it is (log 22, log 27). DESIGN CHOICE: a label on a line that neither generates nor
reserves a byte (RESB 0, RESW 0, an empty BYTE constant) names the address where the line stands; R74 speaks only of the
first byte a line generates or reserves (log 28). -/
def placeFrom (at_ : Nat) (lines : List SourceLine) : Except AsmError (List Placed) :=
  match lines with
  | [] => .ok []
  | ln :: t =>
    match ln.stmt with
    | .error e => .error e
    | .ok (.finish y) => .ok [{ label := none, address := at_, stmt := .finish y }]
    | .ok (.start v) =>
      match placeFrom (v.getD at_) t with
      | .ok ps => .ok ({ label := none, address := v.getD at_, stmt := .start v } :: ps)
      | .error e => .error e
    | .ok st =>
      match placeFrom (at_ + st.size) t with
      | .ok ps => .ok ({ label := ln.label, address := at_, stmt := st } :: ps)
      | .error e => .error e

/-- The labels and the addresses they name (R74; log 28 for a line of no bytes); START's label names the program, not an
address (R75). -/
def symbolsOf (ps : List Placed) : List (String × Nat) :=
  match ps with
  | [] => []
  | p :: t =>
    match p.label with
    | some y => (y, p.address) :: symbolsOf t
    | none => symbolsOf t

/-- The address a symbol names. -/
def addressOf (syms : List (String × Nat)) (y : String) : Except AsmError Nat :=
  match syms with
  | [] => .error (.undefinedSymbol y)
  | p :: t => if p.1 = y then .ok p.2 else addressOf t y

/-- A symbol that two lines label, if there is one. -/
def repeatedSymbol (syms : List (String × Nat)) : Option String :=
  match syms with
  | [] => none
  | p :: t => if t.any (fun q => decide (q.1 = p.1)) then some p.1 else repeatedSymbol t

/-- The bytes of a word at ascending addresses (20_memory.md R43). -/
def wordBytes (o : ByteOrder) (v : Word) : List Byte := [firstByte o v, middleByte v, lastByte o v]

/-- The bytes a statement generates (R75, R76); an instruction's address is its symbol's (R74). -/
def Stmt.bytes (o : ByteOrder) (syms : List (String × Nat)) (st : Stmt) : Except AsmError (List Byte) :=
  match st with
  | .instr mn y d =>
    match addressOf syms y with
    | .error e => .error e
    | .ok n =>
      if n ≤ lastAddress then
        match instrOf mn { mode := d, address := n } with
        | some i => .ok (wordBytes o (encode i))
        | none => .error (.badLine mn)
      else .error .outOfMemory
  | .rsub => .ok (wordBytes o (encode .rsub))
  | .start _ => .ok []
  | .finish _ => .ok []
  | .byte bs => .ok bs
  | .word z => .ok (wordBytes o (trunc24 z))
  | .resb _ => .ok []
  | .resw _ => .ok []

/-- Bytes at ascending addresses from `at_` on. -/
def cellsFrom (at_ : Nat) (bs : List Byte) : List Host.Cell :=
  match bs with
  | [] => []
  | b :: t => (at_, b) :: cellsFrom (at_ + 1) t

/-- What 93_implementation_defined.md U20 asks of a line: what it generates or reserves lies in memory, and a symbol's
value or a START address is at most 32,767 also where nothing is generated there (R74, 70_reset_and_hazards.md R191). -/
def Placed.loadable (p : Placed) : Bool :=
  decide (p.address + p.stmt.size ≤ lastAddress + 1) &&
    match p.label, p.stmt with
    | some _, _ => decide (p.address ≤ lastAddress)
    | none, .start _ => decide (p.address ≤ lastAddress)
    | none, _ => true

/-- The loader image of the placed lines: one cell per generated byte, in the order of the lines; every line must be
loadable (R79, 93_implementation_defined.md U20). Lines that generate a byte for the same address each give it a cell;
which one stands there is the choice of `loadImage` (log 27). -/
def imageOf (o : ByteOrder) (syms : List (String × Nat)) (ps : List Placed) : Except AsmError (List Host.Cell) :=
  match ps with
  | [] => .ok []
  | p :: t =>
    if p.loadable = true then
      match p.stmt.bytes o syms, imageOf o syms t with
      | .ok bs, .ok rest => .ok (cellsFrom p.address bs ++ rest)
      | .error e, _ => .error e
      | .ok _, .error e => .error e
    else .error .outOfMemory

/-- The operand of the first START, if it has one. -/
def startOf (ps : List Placed) : Option Nat :=
  match ps with
  | [] => none
  | p :: t =>
    match p.stmt with
    | .start v => v
    | _ => startOf t

/-- The operand of END, if it has one. -/
def endSymbol (ps : List Placed) : Option String :=
  match ps with
  | [] => none
  | p :: t =>
    match p.stmt with
    | .finish y => y
    | _ => endSymbol t

/-- `ENTRY`: the address of END's operand, else the address the first START gives, else the origin
(70_reset_and_hazards.md R191; log 22 for the first of several). -/
def entryOf (origin : Nat) (syms : List (String × Nat)) (ps : List Placed) : Except AsmError Nat :=
  match endSymbol ps with
  | some y => addressOf syms y
  | none => .ok ((startOf ps).getD origin)

/-- A source program as a loader image and its entry point. `origin` is the launch argument for a program whose START
has no operand (R191). -/
def assemble (o : ByteOrder) (origin : Nat) (lines : List SourceLine) : Except AsmError Program :=
  match placeFrom origin lines with
  | .error e => .error e
  | .ok ps =>
    match repeatedSymbol (symbolsOf ps) with
    | some y => .error (.duplicateSymbol y)
    | none =>
      match imageOf o (symbolsOf ps) ps, entryOf origin (symbolsOf ps) ps with
      | .ok cells, .ok e => if e ≤ 32765 then .ok { entry := e, image := cells } else .error .outOfMemory
      | .error e, _ => .error e
      | .ok _, .error e => .error e

end Sys2Proof.Machine
end

