-- ==== Sys2Proof/Safety.lean ====
section
/-! DEFINITION. Runs, how they end, and the invariants that rule out states no run reaches
(60_exceptions.md R170, 70_reset_and_hazards.md R199, 46_io.md R135). -/

namespace Sys2Proof.Machine

/-- `t` is reached from `s` by steps that each answer a next state. -/
inductive Reaches (s : State) : State → Prop where
  | start : Reaches s s
  | later {t u : State} (before : Reaches s t) (now : step t = .next u) : Reaches s u

/-- The run from `s` is over in `t` (R199). -/
def EndsIn (s t : State) : Prop := Reaches s t ∧ t.Final

/-- A safe run: no step of it raises a fault (R170: "no fault is recorded at the end"). -/
def Safe (s : State) : Prop := ∀ t, Reaches s t → ∀ f, step t ≠ .fault f

/-- The latest event of a device (10_state.md R34). -/
def latestEvent (history : List IOEvent) (d : Byte) : Option IOEvent :=
  (history.filter (fun e => decide (e.device = d))).getLast?

/-- A device is armed after a history when its latest event is a TD that answered ready (10_state.md R34). -/
abbrev ArmedAfter (history : List IOEvent) (d : Byte) : Prop := latestEvent history d = some (.td d .ready)

/-- The event is an RD or a WD. -/
def IOEvent.isTransfer (e : IOEvent) : Bool :=
  match e with
  | .td _ _ => false
  | .rd _ _ => true
  | .wd _ _ => true

/-- Every transfer of a history is on a device that the events before it armed (46_io.md R135). -/
def Disciplined (history : List IOEvent) : Prop :=
  ∀ before e later, history = before ++ e :: later → e.isTransfer = true → ArmedAfter before e.device

/-- Memory is in canonical form. -/
abbrev MemoryInv (s : State) : Prop := Memory.wf s.mem = true

/-- `armed` is a set in canonical form and is what the I/O history alone determines (46_io.md R135). -/
structure DeviceInv (s : State) : Prop where
  canonical : armedWf s.armed = true
  computed : ∀ d, d ∈ s.armed ↔ ArmedAfter s.history d

end Sys2Proof.Machine
end

