-- ==== Sys2Proof/Certificates/Slice0/Obligations.lean ====
section
/-! DEFINITION. The statements for the provers, from the numbered rules of spec/. `s.raise f` is
`raise F(info)` of 60_exceptions.md R171: what it does is stated by `Obligations.RaiseRecordsTheFaultAndNothingElse`.
In every statement about `exec` the state is the one after the fetch, PC already advanced (10_state.md R28). -/

open Sys2Proof Sys2Proof.Machine Host

/-! ## Load and store (40_load_store.md) -/

/-- R80, R82, R83: one word register gets the word at TA, nothing else changes. -/
def Obligations.WordLoadsReplaceTheirRegister : Prop :=
  ∀ (m : Operand) (s : State),
    ((Instr.lda m).opcode = 0x00 ∧ (Instr.ldl m).opcode = 0x08 ∧ (Instr.ldx m).opcode = 0x04) ∧
    (targetAddr m s + 2 ≤ 32767 →
      exec (.lda m) s = .next { s with a := s.wordAt (targetAddr m s) } ∧
      exec (.ldl m) s = .next { s with l := s.wordAt (targetAddr m s) } ∧
      exec (.ldx m) s = .next { s with x := s.wordAt (targetAddr m s) }) ∧
    (32767 < targetAddr m s + 2 → ∀ i ∈ [Instr.lda m, .ldl m, .ldx m],
      exec i s = s.raise (.addressFault .read (s.pc - 3) (targetAddr m s)))

/-- R81: bits [23:8] of A are kept. -/
def Obligations.LdchLoadsOnlyTheRightmostByte : Prop :=
  ∀ (m : Operand) (s : State),
    (Instr.ldch m).opcode = 0x50 ∧
    (targetAddr m s ≤ 32767 →
      exec (.ldch m) s = .next { s with a := (s.a.extractLsb' 8 16 ++ s.byteAt (targetAddr m s) : BitVec 24) }) ∧
    (32767 < targetAddr m s →
      exec (.ldch m) s = s.raise (.addressFault .read (s.pc - 3) (targetAddr m s)))

/-- R84, R86, R88. What `setWord` writes is `Obligations.WordWriteStoresItsThreeBytes`. -/
def Obligations.WordStoresWriteTheirRegister : Prop :=
  ∀ (m : Operand) (s : State),
    ((Instr.sta m).opcode = 0x0C ∧ (Instr.stl m).opcode = 0x14 ∧ (Instr.stx m).opcode = 0x10) ∧
    (targetAddr m s + 2 ≤ 32767 →
      exec (.sta m) s = .next (s.setWord (targetAddr m s) s.a) ∧
      exec (.stl m) s = .next (s.setWord (targetAddr m s) s.l) ∧
      exec (.stx m) s = .next (s.setWord (targetAddr m s) s.x)) ∧
    (32767 < targetAddr m s + 2 → ∀ i ∈ [Instr.sta m, .stl m, .stx m],
      exec i s = s.raise (.addressFault .write (s.pc - 3) (targetAddr m s)))

/-- R87. The stored word is the free value `Config.swImage`, whatever it is, CC unset included. -/
def Obligations.StswStoresTheStatusWord : Prop :=
  ∀ (m : Operand) (s : State),
    (Instr.stsw m).opcode = 0xE8 ∧
    (targetAddr m s + 2 ≤ 32767 →
      exec (.stsw m) s = .next (s.setWord (targetAddr m s) (Config.swImage s.cc s.swRest))) ∧
    (32767 < targetAddr m s + 2 →
      exec (.stsw m) s = s.raise (.addressFault .write (s.pc - 3) (targetAddr m s)))

/-- R85: one byte. -/
def Obligations.StchStoresOneByte : Prop :=
  ∀ (m : Operand) (s : State),
    (Instr.stch m).opcode = 0x54 ∧
    (targetAddr m s ≤ 32767 →
      exec (.stch m) s = .next (s.setByte (targetAddr m s) (s.a.extractLsb' 0 8))) ∧
    (32767 < targetAddr m s →
      exec (.stch m) s = s.raise (.addressFault .write (s.pc - 3) (targetAddr m s)))

/-! ## Memory (20_memory.md) -/

/-- R42, both values of `BYTE_ORDER` (the spec's own decision D2, log 1). -/
def Obligations.WordReadIsThreeBytesInOrder : Prop :=
  ∀ (s : State) (k : Nat),
    (s.params.byteOrder = .big → s.wordAt k = (s.byteAt k ++ s.byteAt (k + 1) ++ s.byteAt (k + 2) : BitVec 24)) ∧
    (s.params.byteOrder = .little → s.wordAt k = (s.byteAt (k + 2) ++ s.byteAt (k + 1) ++ s.byteAt k : BitVec 24))

/-- R43 under the big order, up to the last word (32,765) and the last byte (32,767); the little order beside it is the
model's reading of the parameter (the spec's own decision D2, log 1). -/
def Obligations.WordWriteStoresItsThreeBytes : Prop :=
  ∀ (s : State) (k : Nat) (v : Word), Memory.wf s.mem = true →
    (k + 2 ≤ 32767 →
      (s.params.byteOrder = .big →
        (s.setWord k v).byteAt k = v.extractLsb' 16 8 ∧
        (s.setWord k v).byteAt (k + 1) = v.extractLsb' 8 8 ∧
        (s.setWord k v).byteAt (k + 2) = v.extractLsb' 0 8) ∧
      (s.params.byteOrder = .little →
        (s.setWord k v).byteAt k = v.extractLsb' 0 8 ∧
        (s.setWord k v).byteAt (k + 1) = v.extractLsb' 8 8 ∧
        (s.setWord k v).byteAt (k + 2) = v.extractLsb' 16 8) ∧
      (s.setWord k v).wordAt k = v ∧
      (∀ n, n < k ∨ k + 2 < n → (s.setWord k v).byteAt n = s.byteAt n)) ∧
    (k ≤ 32767 → ∀ b : Byte, (s.setByte k b).byteAt k = b ∧ ∀ n, n ≠ k → (s.setByte k b).byteAt n = s.byteAt n)

/-- R57 (the spec's derivation from R42 and R43), under the big order. -/
def Obligations.WordReadSeesBytesAsLastWritten : Prop :=
  ∀ (s : State) (k : Nat) (v : Word) (b : Byte), Memory.wf s.mem = true → k + 2 ≤ 32767 →
    s.params.byteOrder = .big →
    ((s.setWord k v).setByte k b).wordAt k = (b ++ v.extractLsb' 0 16 : BitVec 24) ∧
    ((s.setWord k v).setByte (k + 1) b).wordAt k = (v.extractLsb' 16 8 ++ b ++ v.extractLsb' 0 8 : BitVec 24) ∧
    ((s.setWord k v).setByte (k + 2) b).wordAt k = (v.extractLsb' 8 16 ++ b : BitVec 24) ∧
    (∀ n, n ≠ k → n ≠ k + 1 → n ≠ k + 2 → ((s.setWord k v).setByte n b).wordAt k = v)

/-- R46, R84 to R88: a store changes the bytes it stores to and no other byte, register or flag. -/
def Obligations.StoresChangeOnlyTheStoredBytes : Prop :=
  ∀ (m : Operand) (s t : State) (ta : Nat), targetAddr m s = ta →
    (∀ i ∈ [Instr.sta m, .stl m, .stx m, .stsw m], exec i s = .next t →
      t = { s with mem := t.mem } ∧ ∀ n, n < ta ∨ ta + 2 < n → t.byteAt n = s.byteAt n) ∧
    (exec (.stch m) s = .next t →
      t = { s with mem := t.mem } ∧ ∀ n, n ≠ ta → t.byteAt n = s.byteAt n)

/-- R46: no instruction but the five stores changes memory. -/
def Obligations.OnlyStoresChangeMemory : Prop :=
  ∀ (i : Instr) (s t : State), exec i s = .next t →
    (∀ m, i ≠ .sta m ∧ i ≠ .stl m ∧ i ≠ .stx m ∧ i ≠ .stsw m ∧ i ≠ .stch m) →
    t.mem = s.mem ∧ ∀ n, t.byteAt n = s.byteAt n

/-- R55 (the spec's own decision D19, log 26): the very next fetch sees a store. First a word stored exactly there, in
either byte order; then, in the big order, any store of the five wherever it falls, so also one that overlaps the next
instruction in part: each byte of that instruction is the stored one where the store reached it, else the old one. -/
def Obligations.NextFetchSeesTheStore : Prop :=
  ∀ (m : Operand) (s : State) (i : Instr) (ta pc : Nat), Memory.wf s.mem = true → s.faultMark = none →
    s.pc ≠ s.params.ret → targetAddr m s = ta → s.pc.toNat = pc → pc + 2 ≤ 32767 →
    (∀ p ∈ [(Instr.sta m, s.a), (.stl m, s.l), (.stx m, s.x), (.stsw m, Config.swImage s.cc s.swRest)],
      (ta = pc → decodeWord p.2 = .ok i →
        ∃ t, exec p.1 s = .next t ∧ step t = exec i { t with pc := s.pc + 3 }) ∧
      (s.params.byteOrder = .big → ∀ t, exec p.1 s = .next t →
        (∀ n ∈ [pc, pc + 1, pc + 2], t.byteAt n =
          if n = ta then p.2.extractLsb' 16 8 else if n = ta + 1 then p.2.extractLsb' 8 8
          else if n = ta + 2 then p.2.extractLsb' 0 8 else s.byteAt n) ∧
        (decodeWord (t.byteAt pc ++ t.byteAt (pc + 1) ++ t.byteAt (pc + 2) : BitVec 24) = .ok i →
          step t = exec i { t with pc := s.pc + 3 }))) ∧
    (s.params.byteOrder = .big → ∀ t, exec (.stch m) s = .next t →
      (∀ n ∈ [pc, pc + 1, pc + 2], t.byteAt n = if n = ta then s.a.extractLsb' 0 8 else s.byteAt n) ∧
      (decodeWord (t.byteAt pc ++ t.byteAt (pc + 1) ++ t.byteAt (pc + 2) : BitVec 24) = .ok i →
        step t = exec i { t with pc := s.pc + 3 }))

/-! ## Arithmetic (41_arithmetic.md) -/

/-- R90, R91, R92, under both values of `ARITH_OVERFLOW` (the parameter of the spec's own decision D6, log 8). -/
def Obligations.AddSubMulNarrowTheExactResult : Prop :=
  ∀ (m : Operand) (s : State) (w : Word), s.wordAt (targetAddr m s) = w →
    ((Instr.add m).opcode = 0x18 ∧ (Instr.sub m).opcode = 0x1C ∧ (Instr.mul m).opcode = 0x20) ∧
    (targetAddr m s + 2 ≤ 32767 →
      ∀ p ∈ [(Instr.add m, s.a.toInt + w.toInt), (.sub m, s.a.toInt - w.toInt), (.mul m, s.a.toInt * w.toInt)],
        (s.params.arithOverflow = .wrap ∨ (-8388608 ≤ p.2 ∧ p.2 ≤ 8388607) →
          exec p.1 s = .next { s with a := BitVec.ofInt 24 p.2 }) ∧
        (s.params.arithOverflow = .fault ∧ (p.2 < -8388608 ∨ 8388607 < p.2) →
          exec p.1 s = s.raise (.arithmeticOverflow (s.pc - 3)))) ∧
    (32767 < targetAddr m s + 2 → ∀ i ∈ [Instr.add m, .sub m, .mul m],
      exec i s = s.raise (.addressFault .read (s.pc - 3) (targetAddr m s)))

/-- R93. Rounding toward zero and DivideByZero are the spec's own decisions D7 and D8 (log 9, log 20). The floor and
other clauses are the model's own reading of other values of `DIV_ROUND` (log 9), the last an integer next
to the exact quotient, whatever the free value `Config.divRoundsUp` is. -/
def Obligations.DivIsTheSignedRoundedQuotient : Prop :=
  ∀ (m : Operand) (s : State) (w : Word), s.wordAt (targetAddr m s) = w →
    (Instr.div m).opcode = 0x24 ∧
    (targetAddr m s + 2 ≤ 32767 → w.toInt ≠ 0 → ∃ q : Int,
      (s.params.divRound = .trunc → q = Int.tdiv s.a.toInt w.toInt) ∧
      (s.params.divRound = .floor → q = Int.fdiv s.a.toInt w.toInt) ∧
      (s.params.divRound = .other → q = Int.fdiv s.a.toInt w.toInt ∨
        (¬ w.toInt ∣ s.a.toInt ∧ q = Int.fdiv s.a.toInt w.toInt + 1)) ∧
      (s.params.arithOverflow = .wrap ∨ q ≤ 8388607 → exec (.div m) s = .next { s with a := BitVec.ofInt 24 q }) ∧
      (s.params.arithOverflow = .fault ∧ 8388607 < q →
        exec (.div m) s = s.raise (.arithmeticOverflow (s.pc - 3)))) ∧
    (targetAddr m s + 2 ≤ 32767 → w.toInt = 0 → exec (.div m) s = s.raise (.divideByZero (s.pc - 3))) ∧
    (32767 < targetAddr m s + 2 →
      exec (.div m) s = s.raise (.addressFault .read (s.pc - 3) (targetAddr m s)))

/-- R94: `s(A) = q * s(M) + r` with `|r| < |s(M)|` and `r` of the sign of `s(A)` or zero, under trunc, but for the one
overflowing case of R93. -/
def Obligations.TruncatedDivisionLaw : Prop :=
  ∀ (m : Operand) (s t : State) (w : Word), s.wordAt (targetAddr m s) = w → s.params.divRound = .trunc →
    ¬ (s.a = 0x800000 ∧ w = 0xFFFFFF) → exec (.div m) s = .next t →
    ∃ r : Int, s.a.toInt = t.a.toInt * w.toInt + r ∧ r.natAbs < w.toInt.natAbs ∧
      (r = 0 ∨ (0 < r ∧ 0 < s.a.toInt) ∨ (r < 0 ∧ s.a.toInt < 0))

/-- R94, under the spec's own default D6 (log 8): under wrap ADD, SUB and MUL are arithmetic modulo 2^24, for which
signedness makes no difference. -/
def Obligations.WrappedArithmeticIsModulo24Bits : Prop :=
  ∀ (m : Operand) (s : State) (w : Word), s.wordAt (targetAddr m s) = w → s.params.arithOverflow = .wrap →
    targetAddr m s + 2 ≤ 32767 →
    exec (.add m) s = .next { s with a := BitVec.ofNat 24 (s.a.toNat + w.toNat) } ∧
    exec (.sub m) s = .next { s with a := BitVec.ofNat 24 (s.a.toNat + (16777216 - w.toNat)) } ∧
    exec (.mul m) s = .next { s with a := BitVec.ofNat 24 (s.a.toNat * w.toNat) }

/-! ## Logical (42_logical.md) -/

/-- R100, R101. -/
def Obligations.AndOrActBitByBit : Prop :=
  ∀ (m : Operand) (s : State) (w : Word), s.wordAt (targetAddr m s) = w →
    ((Instr.and m).opcode = 0x40 ∧ (Instr.or m).opcode = 0x44) ∧
    (targetAddr m s + 2 ≤ 32767 →
      (∃ r : Word, exec (.and m) s = .next { s with a := r } ∧
        ∀ k < 24, r.getLsbD k = (s.a.getLsbD k && w.getLsbD k)) ∧
      (∃ r : Word, exec (.or m) s = .next { s with a := r } ∧
        ∀ k < 24, r.getLsbD k = (s.a.getLsbD k || w.getLsbD k))) ∧
    (32767 < targetAddr m s + 2 → ∀ i ∈ [Instr.and m, .or m],
      exec i s = s.raise (.addressFault .read (s.pc - 3) (targetAddr m s)))

/-! ## Compare (43_compare.md) -/

/-- R105. That `s(.)` is what is compared is also R107, the spec's own decision D9 (log 15). -/
def Obligations.CompComparesSignedAWithTheWord : Prop :=
  ∀ (m : Operand) (s : State) (w : Word), s.wordAt (targetAddr m s) = w →
    (Instr.comp m).opcode = 0x28 ∧
    (targetAddr m s + 2 ≤ 32767 →
      (s.a.toInt < w.toInt → exec (.comp m) s = .next { s with cc := .lt }) ∧
      (s.a = w → exec (.comp m) s = .next { s with cc := .eq }) ∧
      (w.toInt < s.a.toInt → exec (.comp m) s = .next { s with cc := .gt })) ∧
    (32767 < targetAddr m s + 2 →
      exec (.comp m) s = s.raise (.addressFault .read (s.pc - 3) (targetAddr m s)))

/-- R106, under both values of `ARITH_OVERFLOW` (log 8); X is the old one in TA (log 21). -/
def Obligations.TixIncrementsThenCompares : Prop :=
  ∀ (m : Operand) (s : State) (w x' : Word), s.wordAt (targetAddr m s) = w → x' = BitVec.ofInt 24 (s.x.toInt + 1) →
    (Instr.tix m).opcode = 0x2C ∧
    (targetAddr m s + 2 ≤ 32767 → s.params.arithOverflow = .wrap ∨ s.x.toInt + 1 ≤ 8388607 →
      (x'.toInt < w.toInt → exec (.tix m) s = .next { s with x := x', cc := .lt }) ∧
      (x' = w → exec (.tix m) s = .next { s with x := x', cc := .eq }) ∧
      (w.toInt < x'.toInt → exec (.tix m) s = .next { s with x := x', cc := .gt })) ∧
    (targetAddr m s + 2 ≤ 32767 → s.params.arithOverflow = .fault → 8388607 < s.x.toInt + 1 →
      exec (.tix m) s = s.raise (.arithmeticOverflow (s.pc - 3))) ∧
    (32767 < targetAddr m s + 2 →
      exec (.tix m) s = s.raise (.addressFault .read (s.pc - 3) (targetAddr m s)))

/-! ## Jumps and subroutines (44_jump.md, 45_subroutine.md) -/

/-- R111; nothing but PC changes. -/
def Obligations.JumpGoesToTheTarget : Prop :=
  ∀ (m : Operand) (s : State),
    (Instr.j m).opcode = 0x3C ∧
    (targetAddr m s ≤ 32767 → exec (.j m) s = .next { s with pc := BitVec.ofNat 24 (targetAddr m s) }) ∧
    (32767 < targetAddr m s → exec (.j m) s = s.raise (.addressFault .jump (s.pc - 3) (targetAddr m s)))

/-- R112, R113, R114: CCUnset first (log 13), and the target is checked only when the jump is taken. -/
def Obligations.ConditionalJumpsFollowCC : Prop :=
  ∀ (m : Operand) (s : State),
    ((Instr.jeq m).opcode = 0x30 ∧ (Instr.jgt m).opcode = 0x34 ∧ (Instr.jlt m).opcode = 0x38) ∧
    ∀ p ∈ [(Instr.jeq m, CC.eq), (.jgt m, CC.gt), (.jlt m, CC.lt)],
      (s.cc = .unset → exec p.1 s = s.raise (.ccUnset (s.pc - 3))) ∧
      (s.cc = p.2 → targetAddr m s ≤ 32767 →
        exec p.1 s = .next { s with pc := BitVec.ofNat 24 (targetAddr m s) }) ∧
      (s.cc = p.2 → 32767 < targetAddr m s →
        exec p.1 s = s.raise (.addressFault .jump (s.pc - 3) (targetAddr m s))) ∧
      (s.cc ≠ .unset → s.cc ≠ p.2 → exec p.1 s = .next s)

/-- R115: for a set CC and a target in memory away from the next instruction, exactly one of the three jumps. -/
def Obligations.ExactlyOneConditionalJumpIsTaken : Prop :=
  ∀ (m : Operand) (s : State), s.cc ≠ .unset → targetAddr m s ≤ 32767 → s.pc.toNat ≠ targetAddr m s →
    ∃ i ∈ [Instr.jeq m, .jgt m, .jlt m], (∃ t, exec i s = .next t ∧ t.pc.toNat = targetAddr m s) ∧
      ∀ k ∈ [Instr.jeq m, .jgt m, .jlt m], k ≠ i → exec k s = .next s

/-- R120: the target is checked first; L gets the address after the JSUB, which PC holds (R26). -/
def Obligations.JsubSavesTheReturnAddress : Prop :=
  ∀ (m : Operand) (s : State),
    (Instr.jsub m).opcode = 0x48 ∧
    (targetAddr m s ≤ 32767 →
      exec (.jsub m) s = .next { s with l := s.pc, pc := BitVec.ofNat 24 (targetAddr m s) }) ∧
    (32767 < targetAddr m s → exec (.jsub m) s = s.raise (.addressFault .jump (s.pc - 3) (targetAddr m s)))

/-- R121: RSUB copies all of L, whatever bits 15..0 of its word are (also R72, the spec's own decision D13, log 18).
-/
def Obligations.RsubCopiesLWhateverItsOperandBits : Prop :=
  (∀ s : State, exec .rsub s = .next { s with pc := s.l }) ∧ encode .rsub = 0x4C0000#24 ∧
  (∀ bits : BitVec 16, decodeWord (0x4C#8 ++ bits : BitVec 24) = .ok .rsub)

/-- R120 and R121 together: after a JSUB an RSUB goes to the instruction that follows that JSUB, as long as L is kept.
And R123: a further JSUB, from any state `u` after its own fetch, leaves its own return address in L whatever L held,
so that an RSUB then goes after it and the old L is in no register. -/
def Obligations.RsubReturnsAfterTheLatestJsub : Prop :=
  (∀ (m : Operand) (s t u : State), exec (.jsub m) s = .next t → u.l = t.l →
    exec .rsub u = .next { u with pc := s.pc }) ∧
  (∀ (n : Operand) (u v : State) (old : Word), exec (.jsub n) { u with l := old } = .next v →
    v.l = u.pc ∧ exec (.jsub n) u = .next v)

/-! ## I/O (46_io.md) -/

/-- R132. The answer is the environment's, whatever it is; `env` is the model's own bookkeeping of answers used up
(log 10). -/
def Obligations.TdSetsCCAndArmsByTheAnswer : Prop :=
  ∀ (m : Operand) (s : State) (d : Byte), s.byteAt (targetAddr m s) = d →
    (Instr.td m).opcode = 0xE0 ∧
    (targetAddr m s ≤ 32767 → ∃ t, exec (.td m) s = .next t ∧
      t.history = s.history ++ [.td d (s.testAnswer d)] ∧
      (s.testAnswer d = .ready → t.cc = .lt ∧ ∀ e, e ∈ t.armed ↔ e ∈ s.armed ∨ e = d) ∧
      (s.testAnswer d = .busy → t.cc = .eq ∧ ∀ e, e ∈ t.armed ↔ e ∈ s.armed ∧ e ≠ d) ∧
      t = { s with cc := t.cc, armed := t.armed, history := t.history, env := Environment.afterTest s.env }) ∧
    (32767 < targetAddr m s → exec (.td m) s = s.raise (.addressFault .read (s.pc - 3) (targetAddr m s)))

/-- R133. `env` is the model's own bookkeeping of answers used up (log 10). -/
def Obligations.RdReadsOneByteFromAnArmedDevice : Prop :=
  ∀ (m : Operand) (s : State) (d : Byte), s.byteAt (targetAddr m s) = d →
    (Instr.rd m).opcode = 0xD8 ∧
    (targetAddr m s ≤ 32767 → d ∈ s.armed → ∃ t, exec (.rd m) s = .next t ∧
      t.a = (s.a.extractLsb' 8 16 ++ s.readAnswer d : BitVec 24) ∧
      t.history = s.history ++ [.rd d (s.readAnswer d)] ∧
      (∀ e, e ∈ t.armed ↔ e ∈ s.armed ∧ e ≠ d) ∧
      t = { s with a := t.a, armed := t.armed, history := t.history, env := Environment.afterRead s.env }) ∧
    (targetAddr m s ≤ 32767 → d ∉ s.armed → exec (.rd m) s = s.raise (.ioNotReady .rd (s.pc - 3) d)) ∧
    (32767 < targetAddr m s → exec (.rd m) s = s.raise (.addressFault .read (s.pc - 3) (targetAddr m s)))

/-- R134. -/
def Obligations.WdWritesOneByteToAnArmedDevice : Prop :=
  ∀ (m : Operand) (s : State) (d : Byte), s.byteAt (targetAddr m s) = d →
    (Instr.wd m).opcode = 0xDC ∧
    (targetAddr m s ≤ 32767 → d ∈ s.armed → ∃ t, exec (.wd m) s = .next t ∧
      t.history = s.history ++ [.wd d (s.a.extractLsb' 0 8)] ∧
      (∀ e, e ∈ t.armed ↔ e ∈ s.armed ∧ e ≠ d) ∧
      t = { s with armed := t.armed, history := t.history }) ∧
    (targetAddr m s ≤ 32767 → d ∉ s.armed → exec (.wd m) s = s.raise (.ioNotReady .wd (s.pc - 3) d)) ∧
    (32767 < targetAddr m s → exec (.wd m) s = s.raise (.addressFault .read (s.pc - 3) (targetAddr m s)))

/-- R130 (the spec's own decision D18, log 10): the answers are free inputs of the step. Whatever else the state
holds, some environment gives any wished answer to a test, and any wished byte to a read. -/
def Obligations.EveryDeviceAnswerIsPossible : Prop :=
  ∀ (m : Operand) (s : State), targetAddr m s ≤ 32767 →
    (∀ r : Readiness, ∃ (v : Environment) (t : State), exec (.td m) { s with env := v } = .next t ∧
      t.history = s.history ++ [.td (s.byteAt (targetAddr m s)) r]) ∧
    (s.byteAt (targetAddr m s) ∈ s.armed → ∀ b : Byte, ∃ (v : Environment) (t : State),
      exec (.rd m) { s with env := v } = .next t ∧ t.a.extractLsb' 0 8 = b)

/-- R130, R34, R53: an instruction adds to the I/O history the one event of its request, at the end, or nothing; and
only TD, RD and WD add one. -/
def Obligations.HistoryGrowsByTheOneRequest : Prop :=
  ∀ (i : Instr) (s t : State), exec i s = .next t →
    (t.history = s.history ∧ t.armed = s.armed ∧ t.env = s.env ∧ ∀ m, i ≠ .td m ∧ i ≠ .rd m ∧ i ≠ .wd m) ∨
    (∃ m e, t.history = s.history ++ [e] ∧ e.device = s.byteAt (targetAddr m s) ∧
      ((i = .td m ∧ ∃ r, e = .td e.device r) ∨ (i = .rd m ∧ e = .rd e.device (t.a.extractLsb' 0 8)) ∨
        (i = .wd m ∧ e = .wd e.device (s.a.extractLsb' 0 8))))

/-! ## Which instruction writes which register (10_state.md R23 to R31) -/

/-- R23, who writes A. -/
def Obligations.OnlyTheNamedInstructionsWriteA : Prop :=
  ∀ (i : Instr) (s t : State), exec i s = .next t →
    (∀ m, i ≠ .lda m ∧ i ≠ .add m ∧ i ≠ .sub m ∧ i ≠ .mul m ∧ i ≠ .div m ∧ i ≠ .and m ∧ i ≠ .or m) →
    t.a.extractLsb' 8 16 = s.a.extractLsb' 8 16 ∧ ((∀ m, i ≠ .ldch m ∧ i ≠ .rd m) → t.a = s.a)

/-- R24, R25, who writes X and L. -/
def Obligations.OnlyTheNamedInstructionsWriteXAndL : Prop :=
  ∀ (i : Instr) (s t : State), exec i s = .next t →
    ((∀ m, i ≠ .ldx m ∧ i ≠ .tix m) → t.x = s.x) ∧ ((∀ m, i ≠ .ldl m ∧ i ≠ .jsub m) → t.l = s.l)

/-- R29: besides the advance, PC is written to TA by the jumps and to L by RSUB, and by nothing else. -/
def Obligations.OnlyJumpsAndRsubWritePC : Prop :=
  ∀ (i : Instr) (s t : State), exec i s = .next t →
    t.pc = s.pc ∨ (i = .rsub ∧ t.pc = s.l) ∨
    (∃ m, (i = .j m ∨ i = .jeq m ∨ i = .jgt m ∨ i = .jlt m ∨ i = .jsub m) ∧ t.pc.toNat = targetAddr m s ∧
      targetAddr m s ≤ 32767)

/-- R27, R30: only COMP, TIX and TD write CC, each always to one of LT, EQ, GT, and TD never to GT. -/
def Obligations.OnlyCompTixTdWriteCC : Prop :=
  ∀ (i : Instr) (s t : State), exec i s = .next t →
    ((∀ m, i ≠ .comp m ∧ i ≠ .tix m ∧ i ≠ .td m) → t.cc = s.cc) ∧
    (∀ m, i = .comp m ∨ i = .tix m ∨ i = .td m → t.cc ≠ .unset) ∧
    (∀ m, i = .td m → t.cc ≠ .gt)

/-- R31, R37, R36, R35: no instruction changes the rest of SW, a parameter or the fault mark, and once set CC stays
set. -/
def Obligations.NoInstructionChangesSwRestParamsOrMark : Prop :=
  ∀ (i : Instr) (s t : State), exec i s = .next t →
    t.swRest = s.swRest ∧ t.params = s.params ∧ t.faultMark = s.faultMark ∧ (s.cc ≠ .unset → t.cc ≠ .unset)

/-- R23, who reads A: an instruction that neither reads A nor writes a part of it does the same whatever A holds, and
STCH and WD do the same for every A with the same rightmost byte. -/
def Obligations.OtherInstructionsDoNotReadA : Prop :=
  ∀ (i : Instr) (s t : State) (v : Word), exec i s = .next t →
    ((∀ m, i ≠ .sta m ∧ i ≠ .add m ∧ i ≠ .sub m ∧ i ≠ .mul m ∧ i ≠ .div m ∧ i ≠ .and m ∧ i ≠ .or m ∧ i ≠ .comp m ∧
        i ≠ .stch m ∧ i ≠ .wd m ∧ i ≠ .lda m ∧ i ≠ .ldch m ∧ i ≠ .rd m) →
      exec i { s with a := v } = .next { t with a := v }) ∧
    ((∃ m, i = .stch m ∨ i = .wd m) → v.extractLsb' 0 8 = s.a.extractLsb' 0 8 →
      exec i { s with a := v } = .next { t with a := v })

/-- R24, who reads X: an instruction of direct mode that is not STX, TIX or LDX does the same whatever X holds. -/
def Obligations.DirectInstructionsDoNotReadX : Prop :=
  ∀ (i : Instr) (s t : State) (v : Word), (∀ m, i.operand? = some m → m.mode = .direct) →
    (∀ m, i ≠ .stx m ∧ i ≠ .tix m ∧ i ≠ .ldx m) →
    exec i s = .next t → exec i { s with x := v } = .next { t with x := v }

/-- R25 and R27, who reads L and CC: an instruction that neither reads nor writes L does the same whatever L holds; one
that neither reads nor writes CC does the same whatever CC holds, unset included. -/
def Obligations.OtherInstructionsDoNotReadLOrCC : Prop :=
  ∀ (i : Instr) (s t : State), exec i s = .next t →
    (∀ v : Word, (∀ m, i ≠ .stl m ∧ i ≠ .rsub ∧ i ≠ .ldl m ∧ i ≠ .jsub m) →
      exec i { s with l := v } = .next { t with l := v }) ∧
    (∀ c : CC, (∀ m, i ≠ .jeq m ∧ i ≠ .jgt m ∧ i ≠ .jlt m ∧ i ≠ .stsw m ∧ i ≠ .comp m ∧ i ≠ .tix m ∧ i ≠ .td m) →
      exec i { s with cc := c } = .next { t with cc := c })

/-! ## Faults (60_exceptions.md) -/

/-- R171 (the spec's own decision D14, log 6): what `raise` does. -/
def Obligations.RaiseRecordsTheFaultAndNothingElse : Prop :=
  ∀ (s : State) (f : FaultMark), s.raise f = .fault (.raised f { s with faultMark := some f })

/-- R171, R175 (the spec's own decision D14, log 6): a fault of an instruction is precise. Whatever it is, the
recorded state is the one the instruction started from with the mark set, and the information names the
instruction's own address. -/
def Obligations.InstructionFaultsArePrecise : Prop :=
  ∀ (i : Instr) (s u : State) (f : FaultMark), exec i s = .fault (.raised f u) →
    u = { s with faultMark := some f } ∧
    ((∃ k n, f = .addressFault k (s.pc - 3) n) ∨ f = .ccUnset (s.pc - 3) ∨ f = .divideByZero (s.pc - 3) ∨
      f = .arithmeticOverflow (s.pc - 3) ∨ (∃ k d, f = .ioNotReady k (s.pc - 3) d))

/-- R172 (the spec's own decision D14, log 6): which instruction raises which fault. -/
def Obligations.EachFaultIsRaisedByItsInstructions : Prop :=
  ∀ (i : Instr) (s u : State) (f : FaultMark), exec i s = .fault (.raised f u) →
    (∀ p n, f ≠ .addressFault .fetch p n) ∧ (∀ p op, f ≠ .illegalOpcode p op) ∧
    (∀ p n, f = .addressFault .read p n → ∃ m, n = targetAddr m s ∧
      ((i ∈ [Instr.lda m, .ldl m, .ldx m, .add m, .sub m, .mul m, .div m, .and m, .or m, .comp m, .tix m] ∧
        32767 < n + 2) ∨ (i ∈ [Instr.ldch m, .td m, .rd m, .wd m] ∧ 32767 < n))) ∧
    (∀ p n, f = .addressFault .write p n → ∃ m, n = targetAddr m s ∧
      ((i ∈ [Instr.sta m, .stl m, .stx m, .stsw m] ∧ 32767 < n + 2) ∨ (i = .stch m ∧ 32767 < n))) ∧
    (∀ p n, f = .addressFault .jump p n → ∃ m, n = targetAddr m s ∧ 32767 < n ∧
      (i ∈ [Instr.j m, .jsub m] ∨ (i = .jeq m ∧ s.cc = .eq) ∨ (i = .jgt m ∧ s.cc = .gt) ∨ (i = .jlt m ∧ s.cc = .lt))) ∧
    (∀ p, f = .ccUnset p → s.cc = .unset ∧ ∃ m, i ∈ [Instr.jeq m, .jgt m, .jlt m]) ∧
    (∀ p, f = .divideByZero p → ∃ m, i = .div m ∧ s.wordAt (targetAddr m s) = 0) ∧
    (∀ p, f = .arithmeticOverflow p → s.params.arithOverflow = .fault ∧
      ∃ m, i ∈ [Instr.add m, .sub m, .mul m, .div m, .tix m]) ∧
    (∀ k p d, f = .ioNotReady k p d → d ∉ s.armed ∧ ∃ m, s.byteAt (targetAddr m s) = d ∧
      ((k = .rd ∧ i = .rd m) ∨ (k = .wd ∧ i = .wd m)))

/-- R180 (the spec's own decision D15, log 23): every instruction may run at any time; none is refused. -/
def Obligations.NoInstructionIsEverRefused : Prop :=
  ∀ (i : Instr) (s : State), (∃ t, exec i s = .next t) ∨ (∃ f, exec i s = .fault f)

/-! ## The step (10_state.md R28) -/

/-- R28: when the word at PC decodes, the step is the instruction's meaning at the state with PC advanced by 3. -/
def Obligations.StepRunsTheDecodedInstruction : Prop :=
  ∀ (s : State) (i : Instr), s.faultMark = none → s.pc ≠ s.params.ret → s.pc.toNat + 2 ≤ 32767 →
    decodeWord (s.wordAt s.pc.toNat) = .ok i →
    step s = exec i { s with pc := BitVec.ofNat 24 (s.pc.toNat + 3) }

/-- R45, R29, R71 (the spec's own decisions D4, D5, D12, log 14, log 17): the two faults of the fetch, in this
order. -/
def Obligations.StepFaultsOnAFetchBeyondMemoryOrAnUnassignedOpcode : Prop :=
  ∀ s : State, s.faultMark = none → s.pc ≠ s.params.ret →
    (32767 < s.pc.toNat + 2 → step s = s.raise (.addressFault .fetch s.pc s.pc.toNat)) ∧
    (s.pc.toNat + 2 ≤ 32767 → (∀ i : Instr, i.opcode ≠ (s.wordAt s.pc.toNat).extractLsb' 16 8) →
      step s = State.raise { s with pc := BitVec.ofNat 24 (s.pc.toNat + 3) }
        (.illegalOpcode s.pc ((s.wordAt s.pc.toNat).extractLsb' 16 8)))

/-- R36 (the spec's own decision D14, log 6): from a state with a fault recorded no step is taken, the fault stands,
and the state is not final. -/
def Obligations.MarkedStateTakesNoStep : Prop :=
  ∀ (s : State) (f : FaultMark), s.faultMark = some f → step s = .fault (.raised f s) ∧ ¬ s.Final

/-- R199, R200 (the spec's own decision D17, log 5): a step is refused exactly when the run is over, with the final
state, before any fetch. -/
def Obligations.StepIsRefusedExactlyWhenTheRunIsOver : Prop :=
  ∀ (s : State) (r : Refusal), step s = .refused r ↔ (r = .runOver s ∧ s.pc = s.params.ret ∧ s.faultMark = none)

/-- The host's placing of an instruction word, the model's own (log 19): the next step runs it and nothing else of the
state is touched. -/
def Obligations.PlacedWordIsTheNextInstruction : Prop :=
  ∀ (s : State) (w : Nat) (i : Instr), Memory.wf s.mem = true → s.faultMark = none → s.pc ≠ s.params.ret →
    s.pc.toNat + 2 ≤ 32767 → decodeTableWord 24 w = some i →
    step (s.withFetchWord 24 w) = exec i { s.withFetchWord 24 w with pc := s.pc + 3 } ∧
    s.withFetchWord 24 w = { s with mem := (s.withFetchWord 24 w).mem } ∧
    ∀ n, n < s.pc.toNat ∨ s.pc.toNat + 2 < n → (s.withFetchWord 24 w).byteAt n = s.byteAt n

/-! ## Encoding (30_encoding.md) -/

/-- R62, R67: words of the spec, one of each family, written out bit by bit. -/
def Obligations.SpecWordsDecodeToTheirInstructions : Prop :=
  decodeWord 0b00000000_0_001000000010010#24 = .ok (.lda ⟨.direct, 0x1012⟩) ∧
  decodeWord 0b01010100_1_010000000011101#24 = .ok (.stch ⟨.indexed, 0x201D⟩) ∧
  decodeWord 0b00011000_1_000000101010011#24 = .ok (.add ⟨.indexed, 0x0153⟩) ∧
  decodeWord 0b01000100_0_000000000000000#24 = .ok (.or ⟨.direct, 0⟩) ∧
  decodeWord 0b00101100_0_010000000101000#24 = .ok (.tix ⟨.direct, 0x2028⟩) ∧
  decodeWord 0b00111000_0_010000000000011#24 = .ok (.jlt ⟨.direct, 0x2003⟩) ∧
  decodeWord 0b01001000_0_010000000000000#24 = .ok (.jsub ⟨.direct, 0x2000⟩) ∧
  decodeWord 0b11100000_0_001000000011110#24 = .ok (.td ⟨.direct, 0x101E⟩) ∧
  decodeWord 0b00010111_0_010000000101101#24 = .error (.unassigned 0x17)

/-- R61, R62: an encoded well-formed instruction decodes to itself, every operand at every value the encoding admits,
as a word and as the first three bytes of a stream, which leaves the rest. -/
def Obligations.DecodeOfEncodeIsTheInstruction : Prop :=
  ∀ (i : Instr) (rest : List Byte), i.wf = true →
    decodeWord (encode i) = .ok i ∧ decodeBytes (encodeBytes i ++ rest) = .ok (i, rest)

/-- R61, R72: a word that decodes is the word of the instruction it decodes to, but for RSUB, of which only the opcode
byte is read; and what is decoded is well formed. -/
def Obligations.EncodeOfDecodeIsTheWord : Prop :=
  ∀ (w : Word) (i : Instr), decodeWord w = .ok i →
    i.wf = true ∧ (i ≠ .rsub → encode i = w) ∧ (i = .rsub → w.extractLsb' 16 8 = 0x4C)

/-- R71 (the spec's own decision D12, log 17), R67, R70: exactly the 26 assigned opcode bytes decode, all multiples
of 4; every other word is rejected with its opcode byte. -/
def Obligations.ExactlyTheAssignedOpcodesDecode : Prop :=
  ∀ w : Word,
    ((w.extractLsb' 16 8).toNat ∈ [0x00, 0x04, 0x08, 0x0C, 0x10, 0x14, 0x18, 0x1C, 0x20, 0x24, 0x28, 0x2C, 0x30, 0x34,
        0x38, 0x3C, 0x40, 0x44, 0x48, 0x4C, 0x50, 0x54, 0xD8, 0xDC, 0xE0, 0xE8] →
      ∃ i, decodeWord w = .ok i ∧ i.opcode = w.extractLsb' 16 8 ∧ i.opcode.toNat % 4 = 0) ∧
    ((w.extractLsb' 16 8).toNat ∉ [0x00, 0x04, 0x08, 0x0C, 0x10, 0x14, 0x18, 0x1C, 0x20, 0x24, 0x28, 0x2C, 0x30, 0x34,
        0x38, 0x3C, 0x40, 0x44, 0x48, 0x4C, 0x50, 0x54, 0xD8, 0xDC, 0xE0, 0xE8] →
      decodeWord w = .error (.unassigned (w.extractLsb' 16 8)))

/-- R64 (the spec's own decisions D4, D20, log 14, log 21), with R65's worked example. -/
def Obligations.TargetAddressIsThePlainSum : Prop :=
  (∀ (n : Nat) (s : State), targetAddr ⟨.direct, n⟩ s = n ∧ targetAddr ⟨.indexed, n⟩ s = n + s.x.toNat) ∧
  (∀ s : State, s.x = 0x7777 → targetAddr ⟨.indexed, 0x6452⟩ s = 0xDBC9)

/-! ## Launch and invariants -/

/-- R38, R190 (the spec's own decision D16, log 19): the launch state. -/
def Obligations.LaunchStateIsAsTheSpecSays : Prop :=
  ∀ p : Launch, p.admitted = true →
    p.state.pc.toNat = p.entry ∧ p.state.l = p.ret ∧ p.state.params.ret = p.ret ∧
    p.state.a = p.initA ∧ p.state.x = p.initX ∧ p.state.swRest = p.initSwRest ∧ p.state.cc = .unset ∧
    p.state.history = [] ∧ p.state.armed = [] ∧ p.state.faultMark = none ∧
    (∀ c ∈ p.image, p.image.Pairwise (fun c e => c.1 ≠ e.1) → p.state.byteAt c.1 = c.2) ∧
    (∀ n, (∀ c ∈ p.image, c.1 ≠ n) → p.state.byteAt n = Memory.read p.initMem n)

/-- R38: what reset leaves where the spec gives it; and reset is one of the launch states. The launch it is, is the
model's choice (log 2, 3, 4, 5, 10). -/
def Obligations.ResetIsALaunchState : Prop :=
  State.reset = bareLaunch.state ∧ bareLaunch.admitted = true ∧
  State.reset.cc = .unset ∧ State.reset.history = [] ∧ State.reset.armed = [] ∧ State.reset.faultMark = none ∧
  State.reset.l = State.reset.params.ret

/-- The invariants hold at reset. -/
def Obligations.ResetMeetsTheInvariants : Prop :=
  MemoryInv State.reset ∧ DeviceInv State.reset ∧ Disciplined State.reset.history

/-- Every step keeps memory in canonical form, inside 0 .. 32,767. -/
def Obligations.StepKeepsMemoryCanonical : Prop :=
  ∀ s t : State, MemoryInv s → step s = .next t → MemoryInv t

/-- R34, R135 (the spec's own decision D18, log 11): every step keeps `armed` what the I/O history alone says it is.
-/
def Obligations.StepKeepsArmedComputedFromHistory : Prop :=
  ∀ s t : State, DeviceInv s → step s = .next t → DeviceInv t

/-- R135 (the spec's own decision D18, log 11): every step keeps the discipline, that each RD and WD of the history
comes after a TD that answered ready for the same device with no other event of that device between. -/
def Obligations.StepKeepsTransfersDisciplined : Prop :=
  ∀ s t : State, DeviceInv s → Disciplined s.history → step s = .next t → Disciplined t.history

/-- R190, R170, R135 (the spec's own decisions D16, D14, D18, log 19, log 6, log 11): in every state a run from an
admitted launch reaches, whatever image and initial memory it has, memory is canonical, `armed` is what the history says,
every transfer was armed, and no fault is recorded. -/
def Obligations.ReachableStatesAreSound : Prop :=
  ∀ (p : Launch) (t : State), p.admitted = true → Reaches p.state t →
    MemoryInv t ∧ DeviceInv t ∧ Disciplined t.history ∧ t.faultMark = none ∧ t.params.ret = p.ret ∧
    t.swRest = p.initSwRest

/-! ## The assembler's notation (30_encoding.md R74 to R76) -/

/-- R75, R74, R62, R67: what each statement generates, how far it moves the address, and which opcode each mnemonic has.
The little order of WORD is the model's reading of the parameter (log 1). -/
def Obligations.StatementsGenerateTheirBytes : Prop :=
  ∀ (o : ByteOrder) (syms : List (String × Nat)),
    (∀ (z : Int) (v : Word), v = BitVec.ofInt 24 z → Stmt.size (.word z) = 3 ∧
      Stmt.bytes .big syms (.word z) = .ok [v.extractLsb' 16 8, v.extractLsb' 8 8, v.extractLsb' 0 8] ∧
      Stmt.bytes .little syms (.word z) = .ok [v.extractLsb' 0 8, v.extractLsb' 8 8, v.extractLsb' 16 8]) ∧
    (∀ bs : List Byte, Stmt.bytes o syms (.byte bs) = .ok bs ∧ Stmt.size (.byte bs) = bs.length) ∧
    (∀ n : Nat, Stmt.bytes o syms (.resb n) = .ok [] ∧ Stmt.size (.resb n) = n ∧
      Stmt.bytes o syms (.resw n) = .ok [] ∧ Stmt.size (.resw n) = 3 * n) ∧
    (∀ (v : Option Nat) (y : Option String), Stmt.bytes o syms (.start v) = .ok [] ∧
      Stmt.bytes o syms (.finish y) = .ok []) ∧
    (Stmt.bytes .big syms .rsub = .ok [0x4C, 0x00, 0x00] ∧ Stmt.size .rsub = 3) ∧
    (∀ (mn y : String) (d : AddrMode) (n : Nat) (i : Instr), addressOf syms y = .ok n → n ≤ 32767 →
      instrOf mn ⟨d, n⟩ = some i → Stmt.size (.instr mn y d) = 3 ∧
      Stmt.bytes .big syms (.instr mn y d) =
        .ok [i.opcode, BitVec.ofNat 8 ((if d = .indexed then 128 else 0) + n / 256), BitVec.ofNat 8 (n % 256)] ∧
      decodeBytes [i.opcode, BitVec.ofNat 8 ((if d = .indexed then 128 else 0) + n / 256), BitVec.ofNat 8 (n % 256)] =
        .ok (i, [])) ∧
    (∀ (mn : String) (m : Operand), (instrOf mn m).map (fun i => (i.opcode.toNat, i.operand?)) =
      (List.lookup mn [("LDA", 0x00), ("LDCH", 0x50), ("LDL", 0x08), ("LDX", 0x04), ("STA", 0x0C), ("STCH", 0x54),
        ("STL", 0x14), ("STSW", 0xE8), ("STX", 0x10), ("ADD", 0x18), ("SUB", 0x1C), ("MUL", 0x20), ("DIV", 0x24),
        ("AND", 0x40), ("OR", 0x44), ("COMP", 0x28), ("TIX", 0x2C), ("J", 0x3C), ("JEQ", 0x30), ("JGT", 0x34),
        ("JLT", 0x38), ("JSUB", 0x48), ("TD", 0xE0), ("RD", 0xD8), ("WD", 0xDC)]).map fun c => (c, some m)) ∧
    (∀ (k : Nat) (ln : SourceLine) (rest : List SourceLine) (st : Stmt) (ps : List Placed), ln.stmt = .ok st →
      (∀ y, st = .finish y → placeFrom k (ln :: rest) = .ok [⟨none, k, st⟩]) ∧
      (∀ a, st = .start (some a) → placeFrom a rest = .ok ps →
        placeFrom k (ln :: rest) = .ok (⟨none, a, st⟩ :: ps)) ∧
      ((∀ v, st ≠ .start v) → (∀ y, st ≠ .finish y) → placeFrom (k + st.size) rest = .ok ps →
        placeFrom k (ln :: rest) = .ok (⟨ln.label, k, st⟩ :: ps)))

/-- R79, R191, 93_implementation_defined.md U20 (the spec's own decision D16, log 22): an assembled program lies in
memory, so its launch is admitted; and no symbol value and no START address is above 32,767. -/
def Obligations.AssembledProgramsCanBeLaunched : Prop :=
  ∀ (o : ByteOrder) (origin : Nat) (lines : List SourceLine) (g : Program), assemble o origin lines = .ok g →
    (∀ p : Launch, p.entry = g.entry → p.image = g.image → Memory.wf p.initMem = true → p.admitted = true) ∧
    (∀ ps, placeFrom origin lines = .ok ps → ∀ q ∈ ps, q.address + q.stmt.size ≤ 32768 ∧
      (q.label ≠ none ∨ (∃ v, q.stmt = .start v) → q.address ≤ 32767))
end

