-- ==== Sys2Proof/Laws/Assembler.lean ====
section
/-! SUPPORT. What the assembler's parts can do, said once. -/

namespace Sys2Proof.Machine

/-- A loadable line: its bytes lie in memory, and a symbol's value or a START address is at most 32,767. -/
theorem Placed.loadable_spec {p : Placed} (h : p.loadable = true) :
    p.address + p.stmt.size ≤ lastAddress + 1 ∧
      (p.label ≠ none ∨ (∃ v, p.stmt = .start v) → p.address ≤ lastAddress) := by
  obtain ⟨y, k, st⟩ := p
  cases y <;> cases st <;> simp_all [Placed.loadable]

/-- The cells of some bytes lie from their first address up. -/
theorem cellsFrom_below (k : Nat) (bs : List Byte) : ∀ c ∈ cellsFrom k bs, c.1 + 1 ≤ k + bs.length := by
  induction bs generalizing k with
  | nil => simp [cellsFrom]
  | cons b t ih =>
    intro c hc
    rcases List.mem_cons.mp hc with rfl | hc
    · simp
    · have := ih (k + 1) c hc
      simp only [List.length_cons]
      omega

/-- A statement generates no more bytes than it moves the address. -/
theorem Stmt.bytes_length {o : ByteOrder} {syms : List (String × Nat)} {st : Stmt} {bs : List Byte}
    (h : st.bytes o syms = .ok bs) : bs.length ≤ st.size := by
  cases st <;> simp only [Stmt.bytes] at h
  case instr =>
    split at h
    · cases h
    · split at h
      · split at h
        · cases h
          simp [wordBytes, Stmt.size]
        · cases h
      · cases h
  all_goals
    cases h
    simp [wordBytes, Stmt.size]

/-- An image that is answered: every line is loadable and every cell is in memory. -/
theorem imageOf_ok {o : ByteOrder} {syms : List (String × Nat)} {ps : List Placed} {cells : List Host.Cell}
    (h : imageOf o syms ps = .ok cells) :
    (∀ p ∈ ps, p.loadable = true) ∧ ∀ c ∈ cells, c.1 ≤ lastAddress := by
  induction ps generalizing cells with
  | nil =>
    cases h
    simp
  | cons p t ih =>
    unfold imageOf at h
    split at h
    · rename_i hp
      split at h
      · rename_i bs rest hb hr
        cases h
        refine ⟨List.forall_mem_cons.mpr ⟨hp, (ih hr).1⟩, fun c hc => ?_⟩
        rcases List.mem_append.mp hc with hc | hc
        · have := cellsFrom_below _ _ c hc
          have := Stmt.bytes_length hb
          have := (Placed.loadable_spec hp).1
          omega
        · exact (ih hr).2 c hc
      · cases h
      · cases h
    · cases h

/-- A program that is assembled: its lines were placed, its image was answered, and it starts where three bytes are in
memory. -/
theorem assemble_ok {o : ByteOrder} {origin : Nat} {lines : List SourceLine} {g : Program}
    (h : assemble o origin lines = .ok g) :
    ∃ ps, placeFrom origin lines = .ok ps ∧ imageOf o (symbolsOf ps) ps = .ok g.image ∧
      entryOf origin (symbolsOf ps) ps = .ok g.entry ∧ g.entry ≤ 32765 := by
  unfold assemble at h
  split at h
  · cases h
  · rename_i ps hp
    split at h
    · cases h
    · split at h
      · rename_i hi he
        split at h
        · cases h
          exact ⟨ps, hp, hi, he, ‹_›⟩
        · cases h
      · cases h
      · cases h

end Sys2Proof.Machine
end

