-- ==== Sys2Proof/Laws/Decode.lean ====
section
/-! SUPPORT. The fields of an encoded word, and the word of three bytes. -/

namespace Sys2Proof

theorem opcodeField_encode (i : Instr) : opcodeField (encode i) = i.opcode := by
  unfold opcodeField encode
  apply BitVec.eq_of_getLsbD_eq
  intro k hk
  simp only [BitVec.getLsbD_extractLsb', BitVec.getLsbD_append]
  grind

/-- A well-formed operand is read back from the word of any instruction that carries it. -/
theorem operandField_encode (i : Instr) (m : Operand) (h : i.operand? = some m) (hm : m.wf = true) :
    operandField (encode i) = m := by
  have hb : i.operandBits = (m.mode.bit ++ BitVec.ofNat 15 m.address : BitVec 16) := by
    simp [Instr.operandBits, h]
  have haddr : m.address ≤ 32767 := by simpa [Operand.wf] using hm
  unfold operandField encode
  rw [hb]
  obtain ⟨d, n⟩ := m
  simp only [Operand.mk.injEq]
  constructor
  · unfold modeField
    simp only [BitVec.getLsbD_append]
    cases d <;> simp [AddrMode.bit]
  · unfold addressField
    have : (i.opcode ++ (d.bit ++ BitVec.ofNat 15 n : BitVec 16) : BitVec 24).extractLsb' 0 15 = BitVec.ofNat 15 n := by
      apply BitVec.eq_of_getLsbD_eq
      intro k hk
      simp only [BitVec.getLsbD_extractLsb', BitVec.getLsbD_append]
      grind
    rw [this]
    simp at haddr ⊢
    omega

/-- The three bytes of a word, opcode byte first, make the word again. -/
theorem wordOfCode_bytes (w : Word) :
    wordOfCode (w.extractLsb' 16 8) (w.extractLsb' 8 8) (w.extractLsb' 0 8) = w := by
  unfold wordOfCode
  apply BitVec.eq_of_getLsbD_eq
  intro k hk
  simp only [BitVec.getLsbD_append, BitVec.getLsbD_extractLsb']
  grind

end Sys2Proof
end

