-- ==== Sys2Proof/Laws/State.lean ====
section
/-! SUPPORT. One lemma per field per update of State, so that no later proof unfolds a record update. -/

namespace Sys2Proof.Machine

/-! ## State.setByte -/

@[simp] theorem State.setByte_a (s : State) (k : Nat) (b : Byte) : (s.setByte k b).a = s.a := rfl
@[simp] theorem State.setByte_x (s : State) (k : Nat) (b : Byte) : (s.setByte k b).x = s.x := rfl
@[simp] theorem State.setByte_l (s : State) (k : Nat) (b : Byte) : (s.setByte k b).l = s.l := rfl
@[simp] theorem State.setByte_pc (s : State) (k : Nat) (b : Byte) : (s.setByte k b).pc = s.pc := rfl
@[simp] theorem State.setByte_cc (s : State) (k : Nat) (b : Byte) : (s.setByte k b).cc = s.cc := rfl
@[simp] theorem State.setByte_swRest (s : State) (k : Nat) (b : Byte) : (s.setByte k b).swRest = s.swRest := rfl
@[simp] theorem State.setByte_mem (s : State) (k : Nat) (b : Byte) : (s.setByte k b).mem = Memory.write s.mem k b := rfl
@[simp] theorem State.setByte_history (s : State) (k : Nat) (b : Byte) : (s.setByte k b).history = s.history := rfl
@[simp] theorem State.setByte_armed (s : State) (k : Nat) (b : Byte) : (s.setByte k b).armed = s.armed := rfl
@[simp] theorem State.setByte_env (s : State) (k : Nat) (b : Byte) : (s.setByte k b).env = s.env := rfl
@[simp] theorem State.setByte_params (s : State) (k : Nat) (b : Byte) : (s.setByte k b).params = s.params := rfl
@[simp] theorem State.setByte_faultMark (s : State) (k : Nat) (b : Byte) : (s.setByte k b).faultMark = s.faultMark := rfl

/-! ## State.setWord -/

@[simp] theorem State.setWord_a (s : State) (k : Nat) (v : Word) : (s.setWord k v).a = s.a := rfl
@[simp] theorem State.setWord_x (s : State) (k : Nat) (v : Word) : (s.setWord k v).x = s.x := rfl
@[simp] theorem State.setWord_l (s : State) (k : Nat) (v : Word) : (s.setWord k v).l = s.l := rfl
@[simp] theorem State.setWord_pc (s : State) (k : Nat) (v : Word) : (s.setWord k v).pc = s.pc := rfl
@[simp] theorem State.setWord_cc (s : State) (k : Nat) (v : Word) : (s.setWord k v).cc = s.cc := rfl
@[simp] theorem State.setWord_swRest (s : State) (k : Nat) (v : Word) : (s.setWord k v).swRest = s.swRest := rfl
@[simp] theorem State.setWord_mem (s : State) (k : Nat) (v : Word) : (s.setWord k v).mem = Memory.write (Memory.write (Memory.write s.mem k (firstByte s.params.byteOrder v)) (k + 1) (middleByte v)) (k + 2)
      (lastByte s.params.byteOrder v) := rfl
@[simp] theorem State.setWord_history (s : State) (k : Nat) (v : Word) : (s.setWord k v).history = s.history := rfl
@[simp] theorem State.setWord_armed (s : State) (k : Nat) (v : Word) : (s.setWord k v).armed = s.armed := rfl
@[simp] theorem State.setWord_env (s : State) (k : Nat) (v : Word) : (s.setWord k v).env = s.env := rfl
@[simp] theorem State.setWord_params (s : State) (k : Nat) (v : Word) : (s.setWord k v).params = s.params := rfl
@[simp] theorem State.setWord_faultMark (s : State) (k : Nat) (v : Word) : (s.setWord k v).faultMark = s.faultMark := rfl

/-! ## State.setA -/

@[simp] theorem State.setA_a (s : State) (v : Word) : (s.setA v).a = v := rfl
@[simp] theorem State.setA_x (s : State) (v : Word) : (s.setA v).x = s.x := rfl
@[simp] theorem State.setA_l (s : State) (v : Word) : (s.setA v).l = s.l := rfl
@[simp] theorem State.setA_pc (s : State) (v : Word) : (s.setA v).pc = s.pc := rfl
@[simp] theorem State.setA_cc (s : State) (v : Word) : (s.setA v).cc = s.cc := rfl
@[simp] theorem State.setA_swRest (s : State) (v : Word) : (s.setA v).swRest = s.swRest := rfl
@[simp] theorem State.setA_mem (s : State) (v : Word) : (s.setA v).mem = s.mem := rfl
@[simp] theorem State.setA_history (s : State) (v : Word) : (s.setA v).history = s.history := rfl
@[simp] theorem State.setA_armed (s : State) (v : Word) : (s.setA v).armed = s.armed := rfl
@[simp] theorem State.setA_env (s : State) (v : Word) : (s.setA v).env = s.env := rfl
@[simp] theorem State.setA_params (s : State) (v : Word) : (s.setA v).params = s.params := rfl
@[simp] theorem State.setA_faultMark (s : State) (v : Word) : (s.setA v).faultMark = s.faultMark := rfl

/-! ## State.setRmb -/

@[simp] theorem State.setRmb_a (s : State) (b : Byte) : (s.setRmb b).a = withRmb s.a b := rfl
@[simp] theorem State.setRmb_x (s : State) (b : Byte) : (s.setRmb b).x = s.x := rfl
@[simp] theorem State.setRmb_l (s : State) (b : Byte) : (s.setRmb b).l = s.l := rfl
@[simp] theorem State.setRmb_pc (s : State) (b : Byte) : (s.setRmb b).pc = s.pc := rfl
@[simp] theorem State.setRmb_cc (s : State) (b : Byte) : (s.setRmb b).cc = s.cc := rfl
@[simp] theorem State.setRmb_swRest (s : State) (b : Byte) : (s.setRmb b).swRest = s.swRest := rfl
@[simp] theorem State.setRmb_mem (s : State) (b : Byte) : (s.setRmb b).mem = s.mem := rfl
@[simp] theorem State.setRmb_history (s : State) (b : Byte) : (s.setRmb b).history = s.history := rfl
@[simp] theorem State.setRmb_armed (s : State) (b : Byte) : (s.setRmb b).armed = s.armed := rfl
@[simp] theorem State.setRmb_env (s : State) (b : Byte) : (s.setRmb b).env = s.env := rfl
@[simp] theorem State.setRmb_params (s : State) (b : Byte) : (s.setRmb b).params = s.params := rfl
@[simp] theorem State.setRmb_faultMark (s : State) (b : Byte) : (s.setRmb b).faultMark = s.faultMark := rfl

/-! ## State.setX -/

@[simp] theorem State.setX_a (s : State) (v : Word) : (s.setX v).a = s.a := rfl
@[simp] theorem State.setX_x (s : State) (v : Word) : (s.setX v).x = v := rfl
@[simp] theorem State.setX_l (s : State) (v : Word) : (s.setX v).l = s.l := rfl
@[simp] theorem State.setX_pc (s : State) (v : Word) : (s.setX v).pc = s.pc := rfl
@[simp] theorem State.setX_cc (s : State) (v : Word) : (s.setX v).cc = s.cc := rfl
@[simp] theorem State.setX_swRest (s : State) (v : Word) : (s.setX v).swRest = s.swRest := rfl
@[simp] theorem State.setX_mem (s : State) (v : Word) : (s.setX v).mem = s.mem := rfl
@[simp] theorem State.setX_history (s : State) (v : Word) : (s.setX v).history = s.history := rfl
@[simp] theorem State.setX_armed (s : State) (v : Word) : (s.setX v).armed = s.armed := rfl
@[simp] theorem State.setX_env (s : State) (v : Word) : (s.setX v).env = s.env := rfl
@[simp] theorem State.setX_params (s : State) (v : Word) : (s.setX v).params = s.params := rfl
@[simp] theorem State.setX_faultMark (s : State) (v : Word) : (s.setX v).faultMark = s.faultMark := rfl

/-! ## State.setL -/

@[simp] theorem State.setL_a (s : State) (v : Word) : (s.setL v).a = s.a := rfl
@[simp] theorem State.setL_x (s : State) (v : Word) : (s.setL v).x = s.x := rfl
@[simp] theorem State.setL_l (s : State) (v : Word) : (s.setL v).l = v := rfl
@[simp] theorem State.setL_pc (s : State) (v : Word) : (s.setL v).pc = s.pc := rfl
@[simp] theorem State.setL_cc (s : State) (v : Word) : (s.setL v).cc = s.cc := rfl
@[simp] theorem State.setL_swRest (s : State) (v : Word) : (s.setL v).swRest = s.swRest := rfl
@[simp] theorem State.setL_mem (s : State) (v : Word) : (s.setL v).mem = s.mem := rfl
@[simp] theorem State.setL_history (s : State) (v : Word) : (s.setL v).history = s.history := rfl
@[simp] theorem State.setL_armed (s : State) (v : Word) : (s.setL v).armed = s.armed := rfl
@[simp] theorem State.setL_env (s : State) (v : Word) : (s.setL v).env = s.env := rfl
@[simp] theorem State.setL_params (s : State) (v : Word) : (s.setL v).params = s.params := rfl
@[simp] theorem State.setL_faultMark (s : State) (v : Word) : (s.setL v).faultMark = s.faultMark := rfl

/-! ## State.setPc -/

@[simp] theorem State.setPc_a (s : State) (v : Word) : (s.setPc v).a = s.a := rfl
@[simp] theorem State.setPc_x (s : State) (v : Word) : (s.setPc v).x = s.x := rfl
@[simp] theorem State.setPc_l (s : State) (v : Word) : (s.setPc v).l = s.l := rfl
@[simp] theorem State.setPc_pc (s : State) (v : Word) : (s.setPc v).pc = v := rfl
@[simp] theorem State.setPc_cc (s : State) (v : Word) : (s.setPc v).cc = s.cc := rfl
@[simp] theorem State.setPc_swRest (s : State) (v : Word) : (s.setPc v).swRest = s.swRest := rfl
@[simp] theorem State.setPc_mem (s : State) (v : Word) : (s.setPc v).mem = s.mem := rfl
@[simp] theorem State.setPc_history (s : State) (v : Word) : (s.setPc v).history = s.history := rfl
@[simp] theorem State.setPc_armed (s : State) (v : Word) : (s.setPc v).armed = s.armed := rfl
@[simp] theorem State.setPc_env (s : State) (v : Word) : (s.setPc v).env = s.env := rfl
@[simp] theorem State.setPc_params (s : State) (v : Word) : (s.setPc v).params = s.params := rfl
@[simp] theorem State.setPc_faultMark (s : State) (v : Word) : (s.setPc v).faultMark = s.faultMark := rfl

/-! ## State.setCC -/

@[simp] theorem State.setCC_a (s : State) (c : CC) : (s.setCC c).a = s.a := rfl
@[simp] theorem State.setCC_x (s : State) (c : CC) : (s.setCC c).x = s.x := rfl
@[simp] theorem State.setCC_l (s : State) (c : CC) : (s.setCC c).l = s.l := rfl
@[simp] theorem State.setCC_pc (s : State) (c : CC) : (s.setCC c).pc = s.pc := rfl
@[simp] theorem State.setCC_cc (s : State) (c : CC) : (s.setCC c).cc = c := rfl
@[simp] theorem State.setCC_swRest (s : State) (c : CC) : (s.setCC c).swRest = s.swRest := rfl
@[simp] theorem State.setCC_mem (s : State) (c : CC) : (s.setCC c).mem = s.mem := rfl
@[simp] theorem State.setCC_history (s : State) (c : CC) : (s.setCC c).history = s.history := rfl
@[simp] theorem State.setCC_armed (s : State) (c : CC) : (s.setCC c).armed = s.armed := rfl
@[simp] theorem State.setCC_env (s : State) (c : CC) : (s.setCC c).env = s.env := rfl
@[simp] theorem State.setCC_params (s : State) (c : CC) : (s.setCC c).params = s.params := rfl
@[simp] theorem State.setCC_faultMark (s : State) (c : CC) : (s.setCC c).faultMark = s.faultMark := rfl

/-! ## State.record -/

@[simp] theorem State.record_a (s : State) (f : FaultMark) : (s.record f).a = s.a := rfl
@[simp] theorem State.record_x (s : State) (f : FaultMark) : (s.record f).x = s.x := rfl
@[simp] theorem State.record_l (s : State) (f : FaultMark) : (s.record f).l = s.l := rfl
@[simp] theorem State.record_pc (s : State) (f : FaultMark) : (s.record f).pc = s.pc := rfl
@[simp] theorem State.record_cc (s : State) (f : FaultMark) : (s.record f).cc = s.cc := rfl
@[simp] theorem State.record_swRest (s : State) (f : FaultMark) : (s.record f).swRest = s.swRest := rfl
@[simp] theorem State.record_mem (s : State) (f : FaultMark) : (s.record f).mem = s.mem := rfl
@[simp] theorem State.record_history (s : State) (f : FaultMark) : (s.record f).history = s.history := rfl
@[simp] theorem State.record_armed (s : State) (f : FaultMark) : (s.record f).armed = s.armed := rfl
@[simp] theorem State.record_env (s : State) (f : FaultMark) : (s.record f).env = s.env := rfl
@[simp] theorem State.record_params (s : State) (f : FaultMark) : (s.record f).params = s.params := rfl
@[simp] theorem State.record_faultMark (s : State) (f : FaultMark) : (s.record f).faultMark = some f := rfl

/-! ## State.devWritten -/

@[simp] theorem State.devWritten_a (s : State) (d b : Byte) : (s.devWritten d b).a = s.a := rfl
@[simp] theorem State.devWritten_x (s : State) (d b : Byte) : (s.devWritten d b).x = s.x := rfl
@[simp] theorem State.devWritten_l (s : State) (d b : Byte) : (s.devWritten d b).l = s.l := rfl
@[simp] theorem State.devWritten_pc (s : State) (d b : Byte) : (s.devWritten d b).pc = s.pc := rfl
@[simp] theorem State.devWritten_cc (s : State) (d b : Byte) : (s.devWritten d b).cc = s.cc := rfl
@[simp] theorem State.devWritten_swRest (s : State) (d b : Byte) : (s.devWritten d b).swRest = s.swRest := rfl
@[simp] theorem State.devWritten_mem (s : State) (d b : Byte) : (s.devWritten d b).mem = s.mem := rfl
@[simp] theorem State.devWritten_history (s : State) (d b : Byte) : (s.devWritten d b).history = s.history ++ [.wd d b] := rfl
@[simp] theorem State.devWritten_armed (s : State) (d b : Byte) : (s.devWritten d b).armed = disarmDevice s.armed d := rfl
@[simp] theorem State.devWritten_env (s : State) (d b : Byte) : (s.devWritten d b).env = s.env := rfl
@[simp] theorem State.devWritten_params (s : State) (d b : Byte) : (s.devWritten d b).params = s.params := rfl
@[simp] theorem State.devWritten_faultMark (s : State) (d b : Byte) : (s.devWritten d b).faultMark = s.faultMark := rfl

/-! ## State.devReadDone -/

@[simp] theorem State.devReadDone_a (s : State) (d b : Byte) : (s.devReadDone d b).a = s.a := rfl
@[simp] theorem State.devReadDone_x (s : State) (d b : Byte) : (s.devReadDone d b).x = s.x := rfl
@[simp] theorem State.devReadDone_l (s : State) (d b : Byte) : (s.devReadDone d b).l = s.l := rfl
@[simp] theorem State.devReadDone_pc (s : State) (d b : Byte) : (s.devReadDone d b).pc = s.pc := rfl
@[simp] theorem State.devReadDone_cc (s : State) (d b : Byte) : (s.devReadDone d b).cc = s.cc := rfl
@[simp] theorem State.devReadDone_swRest (s : State) (d b : Byte) : (s.devReadDone d b).swRest = s.swRest := rfl
@[simp] theorem State.devReadDone_mem (s : State) (d b : Byte) : (s.devReadDone d b).mem = s.mem := rfl
@[simp] theorem State.devReadDone_history (s : State) (d b : Byte) : (s.devReadDone d b).history = s.history ++ [.rd d b] := rfl
@[simp] theorem State.devReadDone_armed (s : State) (d b : Byte) : (s.devReadDone d b).armed = disarmDevice s.armed d := rfl
@[simp] theorem State.devReadDone_env (s : State) (d b : Byte) : (s.devReadDone d b).env = Environment.afterRead s.env := rfl
@[simp] theorem State.devReadDone_params (s : State) (d b : Byte) : (s.devReadDone d b).params = s.params := rfl
@[simp] theorem State.devReadDone_faultMark (s : State) (d b : Byte) : (s.devReadDone d b).faultMark = s.faultMark := rfl

/-! ## State.advance -/

@[simp] theorem State.advance_a (s : State) : s.advance.a = s.a := rfl
@[simp] theorem State.advance_x (s : State) : s.advance.x = s.x := rfl
@[simp] theorem State.advance_l (s : State) : s.advance.l = s.l := rfl
@[simp] theorem State.advance_pc (s : State) : s.advance.pc = trunc24 (s.pc.toNat + 3) := rfl
@[simp] theorem State.advance_cc (s : State) : s.advance.cc = s.cc := rfl
@[simp] theorem State.advance_swRest (s : State) : s.advance.swRest = s.swRest := rfl
@[simp] theorem State.advance_mem (s : State) : s.advance.mem = s.mem := rfl
@[simp] theorem State.advance_history (s : State) : s.advance.history = s.history := rfl
@[simp] theorem State.advance_armed (s : State) : s.advance.armed = s.armed := rfl
@[simp] theorem State.advance_env (s : State) : s.advance.env = s.env := rfl
@[simp] theorem State.advance_params (s : State) : s.advance.params = s.params := rfl
@[simp] theorem State.advance_faultMark (s : State) : s.advance.faultMark = s.faultMark := rfl

/-! ## State.devTested -/

@[simp] theorem State.devTested_a (s : State) (d : Byte) (r : Readiness) : (s.devTested d r).a = s.a := rfl
@[simp] theorem State.devTested_x (s : State) (d : Byte) (r : Readiness) : (s.devTested d r).x = s.x := rfl
@[simp] theorem State.devTested_l (s : State) (d : Byte) (r : Readiness) : (s.devTested d r).l = s.l := rfl
@[simp] theorem State.devTested_pc (s : State) (d : Byte) (r : Readiness) : (s.devTested d r).pc = s.pc := rfl
@[simp] theorem State.devTested_cc (s : State) (d : Byte) (r : Readiness) : (s.devTested d r).cc = s.cc := rfl
@[simp] theorem State.devTested_swRest (s : State) (d : Byte) (r : Readiness) : (s.devTested d r).swRest = s.swRest := rfl
@[simp] theorem State.devTested_mem (s : State) (d : Byte) (r : Readiness) : (s.devTested d r).mem = s.mem := rfl
@[simp] theorem State.devTested_history (s : State) (d : Byte) (r : Readiness) : (s.devTested d r).history = s.history ++ [.td d r] := rfl
@[simp] theorem State.devTested_armed (s : State) (d : Byte) (r : Readiness) : (s.devTested d r).armed = armedBy s.armed d r := rfl
@[simp] theorem State.devTested_env (s : State) (d : Byte) (r : Readiness) : (s.devTested d r).env = Environment.afterTest s.env := rfl
@[simp] theorem State.devTested_params (s : State) (d : Byte) (r : Readiness) : (s.devTested d r).params = s.params := rfl
@[simp] theorem State.devTested_faultMark (s : State) (d : Byte) (r : Readiness) : (s.devTested d r).faultMark = s.faultMark := rfl

@[simp] theorem armedBy_ready (armed : List Byte) (d : Byte) : armedBy armed d .ready = armDevice armed d := rfl
@[simp] theorem armedBy_busy (armed : List Byte) (d : Byte) : armedBy armed d .busy = disarmDevice armed d := rfl

end Sys2Proof.Machine
end

