-- ==== Sys2Proof/Laws/Devices.lean ====
section
/-! SUPPORT. The set of armed devices and what the I/O history says of a device. -/

namespace Sys2Proof.Machine

theorem mem_disarmDevice (l : List Byte) (d e : Byte) : e ∈ disarmDevice l d ↔ e ∈ l ∧ e ≠ d := by
  simp [disarmDevice]

theorem mem_armDevice (l : List Byte) (d e : Byte) : e ∈ armDevice l d ↔ e = d ∨ e ∈ l := by
  induction l with
  | nil => simp [armDevice]
  | cons f t ih =>
    simp only [armDevice]
    split
    · simp
    · split
      · rename_i hd
        subst hd
        simp
      · simp only [List.mem_cons, ih]
        tauto

theorem disarmDevice_wf (l : List Byte) (d : Byte) (h : armedWf l = true) : armedWf (disarmDevice l d) = true := by
  induction l with
  | nil => rfl
  | cons f t ih =>
    simp only [armedWf, Bool.and_eq_true, List.all_eq_true, decide_eq_true_eq] at h
    have iht := ih h.2
    by_cases hf : f = d
    · simpa [disarmDevice, hf] using iht
    · have e : disarmDevice (f :: t) d = f :: disarmDevice t d := by simp [disarmDevice, hf]
      rw [e]
      simp only [armedWf, Bool.and_eq_true, List.all_eq_true, decide_eq_true_eq]
      exact ⟨fun x hx => h.1 x ((mem_disarmDevice t d x).mp hx).1, iht⟩

theorem armDevice_wf (l : List Byte) (d : Byte) (h : armedWf l = true) : armedWf (armDevice l d) = true := by
  induction l with
  | nil => rfl
  | cons f t ih =>
    have h' := h
    simp only [armedWf, Bool.and_eq_true, List.all_eq_true, decide_eq_true_eq] at h
    simp only [armDevice]
    split
    · rename_i hlt
      simp only [armedWf, Bool.and_eq_true, List.all_eq_true, decide_eq_true_eq]
      refine ⟨fun x hx => ?_, h⟩
      rcases List.mem_cons.mp hx with rfl | hx
      · exact hlt
      · exact Nat.lt_trans hlt (h.1 x hx)
    · split
      · exact h'
      · rename_i h1 h2
        simp only [armedWf, Bool.and_eq_true, List.all_eq_true, decide_eq_true_eq]
        refine ⟨fun x hx => ?_, ih h.2⟩
        rcases (mem_armDevice t d x).mp hx with rfl | hx
        · have : x.toNat ≠ f.toNat := fun e => h2 (BitVec.eq_of_toNat_eq e)
          omega
        · exact h.1 x hx

/-- The latest event of a device after one more event. -/
theorem latestEvent_append (h : List IOEvent) (e : IOEvent) (d : Byte) :
    latestEvent (h ++ [e]) d = if e.device = d then some e else latestEvent h d := by
  unfold latestEvent
  split <;> rename_i hd <;> simp [List.filter_append, hd]

/-- A TD that answers ready arms its device and no other. -/
theorem armedAfter_ready (h : List IOEvent) (d e : Byte) :
    ArmedAfter (h ++ [.td d .ready]) e ↔ e = d ∨ ArmedAfter h e := by
  unfold ArmedAfter
  rw [latestEvent_append]
  by_cases hd : d = e
  · subst hd
    simp [IOEvent.device]
  · have hd' : e ≠ d := fun x => hd x.symm
    simp [IOEvent.device, hd, hd']

/-- A TD that answers busy, or a transfer, disarms its device and no other. -/
theorem armedAfter_disarmed (h : List IOEvent) (v : IOEvent) (e : Byte) (hv : v ≠ .td v.device .ready) :
    ArmedAfter (h ++ [v]) e ↔ ArmedAfter h e ∧ e ≠ v.device := by
  unfold ArmedAfter
  rw [latestEvent_append]
  by_cases hd : v.device = e
  · subst hd
    simp [hv]
  · have hd' : e ≠ v.device := fun x => hd x.symm
    simp [hd, hd']

end Sys2Proof.Machine
end

