-- ==== Sys2Proof/Laws/Ops.lean ====
section
/-! SUPPORT. What each shared operation can answer, said once: its two cases by the condition it checks, and its
inversion (if it answers a next state, then …). -/

namespace Sys2Proof.Machine

theorem State.raise_ne_next (s t : State) (f : FaultMark) : s.raise f ≠ .next t := by
  intro h
  cases h

/-! ## Numbers -/

/-- `trunc24` of a natural number that fits in 24 bits is exact. -/
theorem trunc24_toNat (n : Nat) (h : n < 16777216) : (trunc24 n).toNat = n := by
  simp [trunc24]
  omega

theorem trunc24_natCast (n : Nat) : trunc24 n = BitVec.ofNat 24 n := by
  simp [trunc24]

/-! ## Accesses -/

theorem State.readWordThen_of (s : State) (ta : Nat) (rest : Word → Result) (h : Admitted ta 3) :
    s.readWordThen ta rest = rest (s.wordAt ta) := if_pos h

theorem State.readWordThen_beyond (s : State) (ta : Nat) (rest : Word → Result) (h : ¬ Admitted ta 3) :
    s.readWordThen ta rest = s.raise (.addressFault .read s.instrAddr ta) := if_neg h

theorem State.readWordThen_next {s t : State} {ta : Nat} {rest : Word → Result}
    (h : s.readWordThen ta rest = .next t) : Admitted ta 3 ∧ rest (s.wordAt ta) = .next t := by
  unfold State.readWordThen at h
  split at h
  · exact ⟨‹_›, h⟩
  · exact absurd h (s.raise_ne_next t _)

theorem State.readByteThen_of (s : State) (ta : Nat) (rest : Byte → Result) (h : Admitted ta 1) :
    s.readByteThen ta rest = rest (s.byteAt ta) := if_pos h

theorem State.readByteThen_beyond (s : State) (ta : Nat) (rest : Byte → Result) (h : ¬ Admitted ta 1) :
    s.readByteThen ta rest = s.raise (.addressFault .read s.instrAddr ta) := if_neg h

theorem State.readByteThen_next {s t : State} {ta : Nat} {rest : Byte → Result}
    (h : s.readByteThen ta rest = .next t) : Admitted ta 1 ∧ rest (s.byteAt ta) = .next t := by
  unfold State.readByteThen at h
  split at h
  · exact ⟨‹_›, h⟩
  · exact absurd h (s.raise_ne_next t _)

theorem State.storeWord_next {s t : State} {ta : Nat} {v : Word} (h : s.storeWord ta v = .next t) :
    Admitted ta 3 ∧ t = s.setWord ta v := by
  unfold State.storeWord at h
  split at h
  · exact ⟨‹_›, by simpa using h.symm⟩
  · exact absurd h (s.raise_ne_next t _)

theorem State.storeByte_next {s t : State} {ta : Nat} {b : Byte} (h : s.storeByte ta b = .next t) :
    Admitted ta 1 ∧ t = s.setByte ta b := by
  unfold State.storeByte at h
  split at h
  · exact ⟨‹_›, by simpa using h.symm⟩
  · exact absurd h (s.raise_ne_next t _)

/-! ## Narrowing, jumps, transfers -/

theorem State.narrowThen_next {s t : State} {z : Int} {rest : Word → Result} (h : s.narrowThen z rest = .next t) :
    (s.params.arithOverflow = .wrap ∨ Fits z) ∧ rest (trunc24 z) = .next t := by
  unfold State.narrowThen at h
  split at h
  · exact absurd h (s.raise_ne_next t _)
  · rename_i hn
    refine ⟨?_, h⟩
    cases ho : s.params.arithOverflow with
    | wrap => exact .inl rfl
    | fault => exact .inr (Classical.not_not.mp fun hf => hn ⟨ho, hf⟩)

theorem State.targetThen_next {s t : State} {ta : Nat} {rest : Word → Result} (h : s.targetThen ta rest = .next t) :
    ta ≤ lastAddress ∧ rest (trunc24 ta) = .next t := by
  unfold State.targetThen at h
  split at h
  · exact absurd h (s.raise_ne_next t _)
  · exact ⟨by omega, h⟩

theorem State.jumpTo_next {s t : State} {ta : Nat} (h : s.jumpTo ta = .next t) :
    ta ≤ lastAddress ∧ t = s.setPc (trunc24 ta) := by
  obtain ⟨h1, h2⟩ := State.targetThen_next h
  exact ⟨h1, by simpa using h2.symm⟩

theorem State.jumpWhen_next {s t : State} {c : CC} {ta : Nat} (h : s.jumpWhen c ta = .next t) :
    s.cc ≠ .unset ∧ ((s.cc = c ∧ ta ≤ lastAddress ∧ t = s.setPc (trunc24 ta)) ∨ (s.cc ≠ c ∧ t = s)) := by
  unfold State.jumpWhen at h
  split at h
  · exact absurd h (s.raise_ne_next t _)
  · rename_i hu
    split at h
    · rename_i hc
      exact ⟨hu, .inl ⟨hc, State.jumpTo_next h⟩⟩
    · rename_i hc
      exact ⟨hu, .inr ⟨hc, by simpa using h.symm⟩⟩

theorem State.armedThen_next {s t : State} {k : TransferKind} {d : Byte} {rest : Result}
    (h : s.armedThen k d rest = .next t) : d ∈ s.armed ∧ rest = .next t := by
  unfold State.armedThen at h
  split at h
  · exact ⟨‹_›, h⟩
  · exact absurd h (s.raise_ne_next t _)

/-! ## The same operations answering a fault -/

theorem State.raise_fault {s : State} {f : FaultMark} {g : Fault} (h : s.raise f = .fault g) :
    g = .raised f (s.record f) := by
  simpa [State.raise] using h.symm

theorem State.readWordThen_fault {s : State} {ta : Nat} {rest : Word → Result} {g : Fault}
    (h : s.readWordThen ta rest = .fault g) :
    (¬ Admitted ta 3 ∧ s.raise (.addressFault .read s.instrAddr ta) = .fault g) ∨
      (Admitted ta 3 ∧ rest (s.wordAt ta) = .fault g) := by
  unfold State.readWordThen at h
  split at h
  · exact .inr ⟨‹_›, h⟩
  · exact .inl ⟨‹_›, h⟩

theorem State.readByteThen_fault {s : State} {ta : Nat} {rest : Byte → Result} {g : Fault}
    (h : s.readByteThen ta rest = .fault g) :
    (¬ Admitted ta 1 ∧ s.raise (.addressFault .read s.instrAddr ta) = .fault g) ∨
      (Admitted ta 1 ∧ rest (s.byteAt ta) = .fault g) := by
  unfold State.readByteThen at h
  split at h
  · exact .inr ⟨‹_›, h⟩
  · exact .inl ⟨‹_›, h⟩

theorem State.storeWord_fault {s : State} {ta : Nat} {v : Word} {g : Fault} (h : s.storeWord ta v = .fault g) :
    ¬ Admitted ta 3 ∧ s.raise (.addressFault .write s.instrAddr ta) = .fault g := by
  unfold State.storeWord at h
  split at h
  · cases h
  · exact ⟨‹_›, h⟩

theorem State.storeByte_fault {s : State} {ta : Nat} {b : Byte} {g : Fault} (h : s.storeByte ta b = .fault g) :
    ¬ Admitted ta 1 ∧ s.raise (.addressFault .write s.instrAddr ta) = .fault g := by
  unfold State.storeByte at h
  split at h
  · cases h
  · exact ⟨‹_›, h⟩

theorem State.narrowThen_fault {s : State} {z : Int} {rest : Word → Result} {g : Fault}
    (h : s.narrowThen z rest = .fault g) :
    (s.params.arithOverflow = .fault ∧ ¬ Fits z ∧ s.raise (.arithmeticOverflow s.instrAddr) = .fault g) ∨
      rest (trunc24 z) = .fault g := by
  unfold State.narrowThen at h
  split at h
  · rename_i hc
    exact .inl ⟨hc.1, hc.2, h⟩
  · exact .inr h

theorem State.targetThen_fault {s : State} {ta : Nat} {rest : Word → Result} {g : Fault}
    (h : s.targetThen ta rest = .fault g) :
    (lastAddress < ta ∧ s.raise (.addressFault .jump s.instrAddr ta) = .fault g) ∨
      rest (trunc24 ta) = .fault g := by
  unfold State.targetThen at h
  split at h
  · exact .inl ⟨‹_›, h⟩
  · exact .inr h

theorem State.jumpTo_fault {s : State} {ta : Nat} {g : Fault} (h : s.jumpTo ta = .fault g) :
    lastAddress < ta ∧ s.raise (.addressFault .jump s.instrAddr ta) = .fault g := by
  rcases State.targetThen_fault h with h | h
  · exact h
  · cases h

theorem State.jumpWhen_fault {s : State} {c : CC} {ta : Nat} {g : Fault} (h : s.jumpWhen c ta = .fault g) :
    (s.cc = .unset ∧ s.raise (.ccUnset s.instrAddr) = .fault g) ∨
      (s.cc = c ∧ lastAddress < ta ∧ s.raise (.addressFault .jump s.instrAddr ta) = .fault g) := by
  unfold State.jumpWhen at h
  split at h
  · exact .inl ⟨‹_›, h⟩
  · split at h
    · exact .inr ⟨‹_›, State.jumpTo_fault h⟩
    · cases h

theorem State.armedThen_fault {s : State} {k : TransferKind} {d : Byte} {rest : Result} {g : Fault}
    (h : s.armedThen k d rest = .fault g) :
    (d ∉ s.armed ∧ s.raise (.ioNotReady k s.instrAddr d) = .fault g) ∨ rest = .fault g := by
  unfold State.armedThen at h
  split at h
  · exact .inr h
  · exact .inl ⟨‹_›, h⟩

/-! ## The condition code -/

/-- A comparison never leaves CC unset. -/
theorem compareCC_ne_unset (v w : Word) : compareCC v w ≠ .unset := by
  unfold compareCC
  split
  · decide
  · split <;> decide

theorem readinessCC_ne_unset (r : Readiness) : readinessCC r ≠ .unset := by cases r <;> decide

end Sys2Proof.Machine
end

