-- ==== Sys2Proof/Laws/Exec.lean ====
section
/-! SUPPORT. What each meaning can do when it answers a next state, said once per instruction, so that no later proof
unfolds a meaning. -/

namespace Sys2Proof.Machine

theorem execLda_next {m : Operand} {s t : State} (h : execLda m s = .next t) :
    Admitted (targetAddr m s) 3 ∧ t = s.setA (s.wordAt (targetAddr m s)) := by
  obtain ⟨h1, h2⟩ := State.readWordThen_next h
  exact ⟨h1, by simpa using h2.symm⟩

theorem execLdl_next {m : Operand} {s t : State} (h : execLdl m s = .next t) :
    Admitted (targetAddr m s) 3 ∧ t = s.setL (s.wordAt (targetAddr m s)) := by
  obtain ⟨h1, h2⟩ := State.readWordThen_next h
  exact ⟨h1, by simpa using h2.symm⟩

theorem execLdx_next {m : Operand} {s t : State} (h : execLdx m s = .next t) :
    Admitted (targetAddr m s) 3 ∧ t = s.setX (s.wordAt (targetAddr m s)) := by
  obtain ⟨h1, h2⟩ := State.readWordThen_next h
  exact ⟨h1, by simpa using h2.symm⟩

theorem execAnd_next {m : Operand} {s t : State} (h : execAnd m s = .next t) :
    Admitted (targetAddr m s) 3 ∧ t = s.setA (s.a &&& s.wordAt (targetAddr m s)) := by
  obtain ⟨h1, h2⟩ := State.readWordThen_next h
  exact ⟨h1, by simpa using h2.symm⟩

theorem execOr_next {m : Operand} {s t : State} (h : execOr m s = .next t) :
    Admitted (targetAddr m s) 3 ∧ t = s.setA (s.a ||| s.wordAt (targetAddr m s)) := by
  obtain ⟨h1, h2⟩ := State.readWordThen_next h
  exact ⟨h1, by simpa using h2.symm⟩

theorem execComp_next {m : Operand} {s t : State} (h : execComp m s = .next t) :
    Admitted (targetAddr m s) 3 ∧ t = s.setCC (compareCC s.a (s.wordAt (targetAddr m s))) := by
  obtain ⟨h1, h2⟩ := State.readWordThen_next h
  exact ⟨h1, by simpa using h2.symm⟩

theorem execLdch_next {m : Operand} {s t : State} (h : execLdch m s = .next t) :
    Admitted (targetAddr m s) 1 ∧ t = s.setRmb (s.byteAt (targetAddr m s)) := by
  obtain ⟨h1, h2⟩ := State.readByteThen_next h
  exact ⟨h1, by simpa using h2.symm⟩

theorem execSta_next {m : Operand} {s t : State} (h : execSta m s = .next t) :
    Admitted (targetAddr m s) 3 ∧ t = s.setWord (targetAddr m s) s.a := State.storeWord_next h

theorem execStl_next {m : Operand} {s t : State} (h : execStl m s = .next t) :
    Admitted (targetAddr m s) 3 ∧ t = s.setWord (targetAddr m s) s.l := State.storeWord_next h

theorem execStx_next {m : Operand} {s t : State} (h : execStx m s = .next t) :
    Admitted (targetAddr m s) 3 ∧ t = s.setWord (targetAddr m s) s.x := State.storeWord_next h

theorem execStsw_next {m : Operand} {s t : State} (h : execStsw m s = .next t) :
    Admitted (targetAddr m s) 3 ∧ t = s.setWord (targetAddr m s) s.sw := State.storeWord_next h

theorem execStch_next {m : Operand} {s t : State} (h : execStch m s = .next t) :
    Admitted (targetAddr m s) 1 ∧ t = s.setByte (targetAddr m s) (rmb s.a) := State.storeByte_next h

theorem execAdd_next {m : Operand} {s t : State} (h : execAdd m s = .next t) :
    Admitted (targetAddr m s) 3 ∧ (s.params.arithOverflow = .wrap ∨ Fits (signed s.a + signed (s.wordAt (targetAddr m s)))) ∧
      t = s.setA (trunc24 (signed s.a + signed (s.wordAt (targetAddr m s)))) := by
  obtain ⟨h1, h2⟩ := State.readWordThen_next h
  obtain ⟨h3, h4⟩ := State.narrowThen_next h2
  exact ⟨h1, h3, by simpa using h4.symm⟩

theorem execSub_next {m : Operand} {s t : State} (h : execSub m s = .next t) :
    Admitted (targetAddr m s) 3 ∧ (s.params.arithOverflow = .wrap ∨ Fits (signed s.a - signed (s.wordAt (targetAddr m s)))) ∧
      t = s.setA (trunc24 (signed s.a - signed (s.wordAt (targetAddr m s)))) := by
  obtain ⟨h1, h2⟩ := State.readWordThen_next h
  obtain ⟨h3, h4⟩ := State.narrowThen_next h2
  exact ⟨h1, h3, by simpa using h4.symm⟩

theorem execMul_next {m : Operand} {s t : State} (h : execMul m s = .next t) :
    Admitted (targetAddr m s) 3 ∧ (s.params.arithOverflow = .wrap ∨ Fits (signed s.a * signed (s.wordAt (targetAddr m s)))) ∧
      t = s.setA (trunc24 (signed s.a * signed (s.wordAt (targetAddr m s)))) := by
  obtain ⟨h1, h2⟩ := State.readWordThen_next h
  obtain ⟨h3, h4⟩ := State.narrowThen_next h2
  exact ⟨h1, h3, by simpa using h4.symm⟩

theorem execDiv_next {m : Operand} {s t : State} (h : execDiv m s = .next t) :
    Admitted (targetAddr m s) 3 ∧ signed (s.wordAt (targetAddr m s)) ≠ 0 ∧
      (s.params.arithOverflow = .wrap ∨ Fits (quotient s.params.divRound (signed s.a) (signed (s.wordAt (targetAddr m s))))) ∧
      t = s.setA (trunc24 (quotient s.params.divRound (signed s.a) (signed (s.wordAt (targetAddr m s))))) := by
  obtain ⟨h1, h2⟩ := State.readWordThen_next h
  split at h2
  · exact absurd h2 (s.raise_ne_next t _)
  · obtain ⟨h3, h4⟩ := State.narrowThen_next h2
    exact ⟨h1, ‹_›, h3, by simpa using h4.symm⟩

theorem execTix_next {m : Operand} {s t : State} (h : execTix m s = .next t) :
    Admitted (targetAddr m s) 3 ∧ (s.params.arithOverflow = .wrap ∨ Fits (signed s.x + 1)) ∧
      t = (s.setX (trunc24 (signed s.x + 1))).setCC (compareCC (trunc24 (signed s.x + 1)) (s.wordAt (targetAddr m s))) := by
  obtain ⟨h1, h2⟩ := State.readWordThen_next h
  obtain ⟨h3, h4⟩ := State.narrowThen_next h2
  exact ⟨h1, h3, by simpa using h4.symm⟩

theorem execJ_next {m : Operand} {s t : State} (h : execJ m s = .next t) :
    targetAddr m s ≤ lastAddress ∧ t = s.setPc (trunc24 (targetAddr m s)) := State.jumpTo_next h

theorem execJeq_next {m : Operand} {s t : State} (h : execJeq m s = .next t) :
    s.cc ≠ .unset ∧ ((s.cc = .eq ∧ targetAddr m s ≤ lastAddress ∧ t = s.setPc (trunc24 (targetAddr m s))) ∨
      (s.cc ≠ .eq ∧ t = s)) := State.jumpWhen_next h

theorem execJgt_next {m : Operand} {s t : State} (h : execJgt m s = .next t) :
    s.cc ≠ .unset ∧ ((s.cc = .gt ∧ targetAddr m s ≤ lastAddress ∧ t = s.setPc (trunc24 (targetAddr m s))) ∨
      (s.cc ≠ .gt ∧ t = s)) := State.jumpWhen_next h

theorem execJlt_next {m : Operand} {s t : State} (h : execJlt m s = .next t) :
    s.cc ≠ .unset ∧ ((s.cc = .lt ∧ targetAddr m s ≤ lastAddress ∧ t = s.setPc (trunc24 (targetAddr m s))) ∨
      (s.cc ≠ .lt ∧ t = s)) := State.jumpWhen_next h

theorem execJsub_next {m : Operand} {s t : State} (h : execJsub m s = .next t) :
    targetAddr m s ≤ lastAddress ∧ t = (s.setL s.pc).setPc (trunc24 (targetAddr m s)) := by
  obtain ⟨h1, h2⟩ := State.targetThen_next h
  exact ⟨h1, by simpa using h2.symm⟩

theorem execRsub_next {s t : State} (h : execRsub s = .next t) : t = s.setPc s.l := by
  simpa [execRsub] using h.symm

theorem execTd_next {m : Operand} {s t : State} (h : execTd m s = .next t) :
    Admitted (targetAddr m s) 1 ∧
      t = (s.devTested (s.byteAt (targetAddr m s)) (s.testAnswer (s.byteAt (targetAddr m s)))).setCC
        (readinessCC (s.testAnswer (s.byteAt (targetAddr m s)))) := by
  obtain ⟨h1, h2⟩ := State.readByteThen_next h
  exact ⟨h1, by simpa using h2.symm⟩

theorem execRd_next {m : Operand} {s t : State} (h : execRd m s = .next t) :
    Admitted (targetAddr m s) 1 ∧ s.byteAt (targetAddr m s) ∈ s.armed ∧
      t = (s.devReadDone (s.byteAt (targetAddr m s)) (s.readAnswer (s.byteAt (targetAddr m s)))).setRmb
        (s.readAnswer (s.byteAt (targetAddr m s))) := by
  obtain ⟨h1, h2⟩ := State.readByteThen_next h
  obtain ⟨h3, h4⟩ := State.armedThen_next h2
  exact ⟨h1, h3, by simpa using h4.symm⟩

theorem execWd_next {m : Operand} {s t : State} (h : execWd m s = .next t) :
    Admitted (targetAddr m s) 1 ∧ s.byteAt (targetAddr m s) ∈ s.armed ∧
      t = s.devWritten (s.byteAt (targetAddr m s)) (rmb s.a) := by
  obtain ⟨h1, h2⟩ := State.readByteThen_next h
  obtain ⟨h3, h4⟩ := State.armedThen_next h2
  exact ⟨h1, h3, by simpa using h4.symm⟩

/-! ## One inversion for all instructions -/

/-- `Effect s i t`: instruction `i` takes `s` to the next state `t`, with what it needs of `s` to do so. -/
inductive Effect (s : State) : Instr → State → Prop where
  | lda (m : Operand)
      (ha : Admitted (targetAddr m s) 3) :
      Effect s (.lda m) (s.setA (s.wordAt (targetAddr m s)))
  | ldl (m : Operand)
      (ha : Admitted (targetAddr m s) 3) :
      Effect s (.ldl m) (s.setL (s.wordAt (targetAddr m s)))
  | ldx (m : Operand)
      (ha : Admitted (targetAddr m s) 3) :
      Effect s (.ldx m) (s.setX (s.wordAt (targetAddr m s)))
  | and (m : Operand)
      (ha : Admitted (targetAddr m s) 3) :
      Effect s (.and m) (s.setA (s.a &&& s.wordAt (targetAddr m s)))
  | or (m : Operand)
      (ha : Admitted (targetAddr m s) 3) :
      Effect s (.or m) (s.setA (s.a ||| s.wordAt (targetAddr m s)))
  | comp (m : Operand)
      (ha : Admitted (targetAddr m s) 3) :
      Effect s (.comp m) (s.setCC (compareCC s.a (s.wordAt (targetAddr m s))))
  | sta (m : Operand)
      (ha : Admitted (targetAddr m s) 3) :
      Effect s (.sta m) (s.setWord (targetAddr m s) s.a)
  | stl (m : Operand)
      (ha : Admitted (targetAddr m s) 3) :
      Effect s (.stl m) (s.setWord (targetAddr m s) s.l)
  | stx (m : Operand)
      (ha : Admitted (targetAddr m s) 3) :
      Effect s (.stx m) (s.setWord (targetAddr m s) s.x)
  | stsw (m : Operand)
      (ha : Admitted (targetAddr m s) 3) :
      Effect s (.stsw m) (s.setWord (targetAddr m s) s.sw)
  | ldch (m : Operand)
      (ha : Admitted (targetAddr m s) 1) :
      Effect s (.ldch m) (s.setRmb (s.byteAt (targetAddr m s)))
  | stch (m : Operand)
      (ha : Admitted (targetAddr m s) 1) :
      Effect s (.stch m) (s.setByte (targetAddr m s) (rmb s.a))
  | add (m : Operand)
      (ha : Admitted (targetAddr m s) 3)
      (hf : s.params.arithOverflow = .wrap ∨ Fits (signed s.a + signed (s.wordAt (targetAddr m s)))) :
      Effect s (.add m) (s.setA (trunc24 (signed s.a + signed (s.wordAt (targetAddr m s)))))
  | sub (m : Operand)
      (ha : Admitted (targetAddr m s) 3)
      (hf : s.params.arithOverflow = .wrap ∨ Fits (signed s.a - signed (s.wordAt (targetAddr m s)))) :
      Effect s (.sub m) (s.setA (trunc24 (signed s.a - signed (s.wordAt (targetAddr m s)))))
  | mul (m : Operand)
      (ha : Admitted (targetAddr m s) 3)
      (hf : s.params.arithOverflow = .wrap ∨ Fits (signed s.a * signed (s.wordAt (targetAddr m s)))) :
      Effect s (.mul m) (s.setA (trunc24 (signed s.a * signed (s.wordAt (targetAddr m s)))))
  | div (m : Operand)
      (ha : Admitted (targetAddr m s) 3)
      (hz : signed (s.wordAt (targetAddr m s)) ≠ 0)
      (hf : s.params.arithOverflow = .wrap ∨ Fits (quotient s.params.divRound (signed s.a) (signed (s.wordAt (targetAddr m s))))) :
      Effect s (.div m) (s.setA (trunc24 (quotient s.params.divRound (signed s.a) (signed (s.wordAt (targetAddr m s))))))
  | tix (m : Operand)
      (ha : Admitted (targetAddr m s) 3)
      (hf : s.params.arithOverflow = .wrap ∨ Fits (signed s.x + 1)) :
      Effect s (.tix m) ((s.setX (trunc24 (signed s.x + 1))).setCC (compareCC (trunc24 (signed s.x + 1)) (s.wordAt (targetAddr m s))))
  | j (m : Operand)
      (ht : targetAddr m s ≤ lastAddress) :
      Effect s (.j m) (s.setPc (trunc24 (targetAddr m s)))
  | jeq (m : Operand)
      (hc : s.cc = .eq)
      (ht : targetAddr m s ≤ lastAddress) :
      Effect s (.jeq m) (s.setPc (trunc24 (targetAddr m s)))
  | jeqNot (m : Operand)
      (hu : s.cc ≠ .unset)
      (hc : s.cc ≠ .eq) :
      Effect s (.jeq m) (s)
  | jgt (m : Operand)
      (hc : s.cc = .gt)
      (ht : targetAddr m s ≤ lastAddress) :
      Effect s (.jgt m) (s.setPc (trunc24 (targetAddr m s)))
  | jgtNot (m : Operand)
      (hu : s.cc ≠ .unset)
      (hc : s.cc ≠ .gt) :
      Effect s (.jgt m) (s)
  | jlt (m : Operand)
      (hc : s.cc = .lt)
      (ht : targetAddr m s ≤ lastAddress) :
      Effect s (.jlt m) (s.setPc (trunc24 (targetAddr m s)))
  | jltNot (m : Operand)
      (hu : s.cc ≠ .unset)
      (hc : s.cc ≠ .lt) :
      Effect s (.jlt m) (s)
  | jsub (m : Operand)
      (ht : targetAddr m s ≤ lastAddress) :
      Effect s (.jsub m) ((s.setL s.pc).setPc (trunc24 (targetAddr m s)))
  | rsub :
      Effect s .rsub (s.setPc s.l)
  | td (m : Operand)
      (ha : Admitted (targetAddr m s) 1) :
      Effect s (.td m) ((s.devTested (s.byteAt (targetAddr m s)) (s.testAnswer (s.byteAt (targetAddr m s)))).setCC
        (readinessCC (s.testAnswer (s.byteAt (targetAddr m s)))))
  | rd (m : Operand)
      (ha : Admitted (targetAddr m s) 1)
      (hr : s.byteAt (targetAddr m s) ∈ s.armed) :
      Effect s (.rd m) ((s.devReadDone (s.byteAt (targetAddr m s)) (s.readAnswer (s.byteAt (targetAddr m s)))).setRmb
        (s.readAnswer (s.byteAt (targetAddr m s))))
  | wd (m : Operand)
      (ha : Admitted (targetAddr m s) 1)
      (hr : s.byteAt (targetAddr m s) ∈ s.armed) :
      Effect s (.wd m) (s.devWritten (s.byteAt (targetAddr m s)) (rmb s.a))

/-- An instruction that answers a next state has its effect. -/
theorem exec_effect {i : Instr} {s t : State} (h : exec i s = .next t) : Effect s i t := by
  cases i with
  | lda m => obtain ⟨ha, rfl⟩ := execLda_next h; exact .lda m ha
  | ldl m => obtain ⟨ha, rfl⟩ := execLdl_next h; exact .ldl m ha
  | ldx m => obtain ⟨ha, rfl⟩ := execLdx_next h; exact .ldx m ha
  | and m => obtain ⟨ha, rfl⟩ := execAnd_next h; exact .and m ha
  | or m => obtain ⟨ha, rfl⟩ := execOr_next h; exact .or m ha
  | comp m => obtain ⟨ha, rfl⟩ := execComp_next h; exact .comp m ha
  | sta m => obtain ⟨ha, rfl⟩ := execSta_next h; exact .sta m ha
  | stl m => obtain ⟨ha, rfl⟩ := execStl_next h; exact .stl m ha
  | stx m => obtain ⟨ha, rfl⟩ := execStx_next h; exact .stx m ha
  | stsw m => obtain ⟨ha, rfl⟩ := execStsw_next h; exact .stsw m ha
  | ldch m => obtain ⟨ha, rfl⟩ := execLdch_next h; exact .ldch m ha
  | stch m => obtain ⟨ha, rfl⟩ := execStch_next h; exact .stch m ha
  | add m => obtain ⟨ha, hf, rfl⟩ := execAdd_next h; exact .add m ha hf
  | sub m => obtain ⟨ha, hf, rfl⟩ := execSub_next h; exact .sub m ha hf
  | mul m => obtain ⟨ha, hf, rfl⟩ := execMul_next h; exact .mul m ha hf
  | tix m => obtain ⟨ha, hf, rfl⟩ := execTix_next h; exact .tix m ha hf
  | div m => obtain ⟨ha, hz, hf, rfl⟩ := execDiv_next h; exact .div m ha hz hf
  | j m => obtain ⟨ht, rfl⟩ := execJ_next h; exact .j m ht
  | jeq m =>
    obtain ⟨hu, ⟨hc, ht, rfl⟩ | ⟨hc, rfl⟩⟩ := execJeq_next h
    · exact .jeq m hc ht
    · exact .jeqNot m hu hc
  | jgt m =>
    obtain ⟨hu, ⟨hc, ht, rfl⟩ | ⟨hc, rfl⟩⟩ := execJgt_next h
    · exact .jgt m hc ht
    · exact .jgtNot m hu hc
  | jlt m =>
    obtain ⟨hu, ⟨hc, ht, rfl⟩ | ⟨hc, rfl⟩⟩ := execJlt_next h
    · exact .jlt m hc ht
    · exact .jltNot m hu hc
  | jsub m => obtain ⟨ht, rfl⟩ := execJsub_next h; exact .jsub m ht
  | rsub => obtain rfl := execRsub_next h; exact .rsub
  | td m => obtain ⟨ha, rfl⟩ := execTd_next h; exact .td m ha
  | rd m => obtain ⟨ha, hr, rfl⟩ := execRd_next h; exact .rd m ha hr
  | wd m => obtain ⟨ha, hr, rfl⟩ := execWd_next h; exact .wd m ha hr

end Sys2Proof.Machine
end

