-- ==== Sys2Proof/Laws/Memory.lean ====
section
/-! SUPPORT. Memory: a byte read after a write, and the canonical form, which every memory operation keeps. -/

namespace Sys2Proof.Machine

/-! ## Reading after writing one byte -/

theorem Memory.read_write_other (m : Memory) (k : Nat) (b : Byte) (n : Nat) (h : n ≠ k) :
    Memory.read (Memory.write m k b) n = Memory.read m n := by
  induction m with
  | nil =>
    by_cases hb : b = Memory.unlisted <;> simp [Memory.write, Memory.read, hb, h.symm]
  | cons c t ih =>
    simp only [Memory.write]
    split
    · split <;> simp [Memory.read, h.symm]
    · split
      · rename_i hk
        have hc : c.1 ≠ n := by omega
        split <;> simp [Memory.read, hc, h.symm]
      · simp only [Memory.read, ih]

/-- Below its first address a canonical memory lists nothing. -/
theorem Memory.read_below (m : Memory) (lo n : Nat) (h : Memory.wfFrom lo m = true) (hn : n < lo) :
    Memory.read m n = Memory.unlisted := by
  induction m generalizing lo with
  | nil => rfl
  | cons c t ih =>
    simp only [Memory.wfFrom, Bool.and_eq_true, decide_eq_true_eq] at h
    obtain ⟨⟨⟨h1, -⟩, -⟩, h4⟩ := h
    have hc : c.1 ≠ n := by omega
    simp only [Memory.read, hc, if_false]
    exact ih (c.1 + 1) h4 (by omega)

theorem Memory.read_write_same_from (m : Memory) (lo k : Nat) (b : Byte) (h : Memory.wfFrom lo m = true) :
    Memory.read (Memory.write m k b) k = b := by
  induction m generalizing lo with
  | nil => by_cases hb : b = Memory.unlisted <;> simp [Memory.write, Memory.read, hb]
  | cons c t ih =>
    simp only [Memory.wfFrom, Bool.and_eq_true, decide_eq_true_eq] at h
    obtain ⟨-, h4⟩ := h
    simp only [Memory.write]
    split
    · rename_i hlt
      split
      · rename_i hb
        have hc : c.1 ≠ k := by omega
        simp only [Memory.read, hc, if_false, hb]
        exact Memory.read_below t (c.1 + 1) k h4 (by omega)
      · simp [Memory.read]
    · split
      · rename_i hk
        split
        · rename_i hb
          rw [hb]
          exact Memory.read_below t (c.1 + 1) k h4 (by omega)
        · simp [Memory.read]
      · rename_i hk
        have hc : c.1 ≠ k := fun e => hk e.symm
        simp only [Memory.read, hc, if_false]
        exact ih (c.1 + 1) h4

theorem Memory.read_write_same (m : Memory) (k : Nat) (b : Byte) (h : Memory.wf m = true) :
    Memory.read (Memory.write m k b) k = b := Memory.read_write_same_from m 0 k b h

/-! ## The canonical form -/

theorem Memory.wfFrom_mono (m : Memory) (lo lo' : Nat) (hle : lo' ≤ lo) (h : Memory.wfFrom lo m = true) :
    Memory.wfFrom lo' m = true := by
  cases m with
  | nil => rfl
  | cons c t =>
    simp only [Memory.wfFrom, Bool.and_eq_true, decide_eq_true_eq] at h ⊢
    exact ⟨⟨⟨by omega, h.1.1.2⟩, h.1.2⟩, h.2⟩

theorem Memory.write_wfFrom (m : Memory) (lo k : Nat) (b : Byte) (h : Memory.wfFrom lo m = true)
    (hlo : lo ≤ k) (hk : k ≤ lastAddress) : Memory.wfFrom lo (Memory.write m k b) = true := by
  induction m generalizing lo with
  | nil =>
    by_cases hb : b = Memory.unlisted <;> simp [Memory.write, Memory.wfFrom, hb, hlo, hk]
  | cons c t ih =>
    have h' := h
    simp only [Memory.wfFrom, Bool.and_eq_true, decide_eq_true_eq] at h'
    obtain ⟨⟨⟨h1, h2⟩, h3⟩, h4⟩ := h'
    simp only [Memory.write]
    split
    · split
      · exact h
      · rename_i hlt hb
        simp only [Memory.wfFrom, Bool.and_eq_true, decide_eq_true_eq]
        exact ⟨⟨⟨hlo, hk⟩, hb⟩, ⟨⟨by omega, h2⟩, h3⟩, h4⟩
    · split
      · rename_i hkc
        split
        · exact Memory.wfFrom_mono t (c.1 + 1) lo (by omega) h4
        · rename_i hb
          subst hkc
          simp only [Memory.wfFrom, Bool.and_eq_true, decide_eq_true_eq]
          exact ⟨⟨⟨hlo, hk⟩, hb⟩, h4⟩
      · simp only [Memory.wfFrom, Bool.and_eq_true, decide_eq_true_eq]
        exact ⟨⟨⟨h1, h2⟩, h3⟩, ih (c.1 + 1) h4 (by omega)⟩

/-- A byte write inside memory keeps the canonical form. -/
theorem Memory.write_wf (m : Memory) (k : Nat) (b : Byte) (h : Memory.wf m = true) (hk : k ≤ lastAddress) :
    Memory.wf (Memory.write m k b) = true := Memory.write_wfFrom m 0 k b h (Nat.zero_le k) hk

theorem State.setByte_wf (s : State) (k : Nat) (b : Byte) (h : Memory.wf s.mem = true) (hk : Admitted k 1) :
    Memory.wf (s.setByte k b).mem = true := by
  simp only [Admitted] at hk
  exact Memory.write_wf s.mem k b h (by omega)

theorem State.setWord_wf (s : State) (k : Nat) (v : Word) (h : Memory.wf s.mem = true) (hk : Admitted k 3) :
    Memory.wf (s.setWord k v).mem = true := by
  simp only [Admitted] at hk
  simp only [State.setWord_mem]
  exact Memory.write_wf _ _ _ (Memory.write_wf _ _ _ (Memory.write_wf _ _ _ h (by omega)) (by omega)) (by omega)

theorem State.placeAtPc_wf (s : State) (w : Word) (h : Memory.wf s.mem = true) :
    Memory.wf (s.placeAtPc w).mem = true := by
  unfold State.placeAtPc
  split
  · rename_i hk
    exact s.setWord_wf _ w h hk
  · exact h

theorem reset_memory_wf : Memory.wf State.reset.mem = true := rfl

/-! ## Bytes and words of the state -/

theorem State.byteAt_setByte_other (s : State) (k : Nat) (b : Byte) (n : Nat) (h : n ≠ k) :
    (s.setByte k b).byteAt n = s.byteAt n := Memory.read_write_other s.mem k b n h

theorem State.byteAt_setByte_same (s : State) (k : Nat) (b : Byte) (h : Memory.wf s.mem = true) :
    (s.setByte k b).byteAt k = b := Memory.read_write_same s.mem k b h

/-- Outside the three bytes of a word store every byte reads as before. -/
theorem State.byteAt_setWord_other (s : State) (k : Nat) (v : Word) (n : Nat) (h : n < k ∨ k + 2 < n) :
    (s.setWord k v).byteAt n = s.byteAt n := by
  unfold State.setWord
  rw [State.byteAt_setByte_other _ _ _ _ (by omega), State.byteAt_setByte_other _ _ _ _ (by omega),
    State.byteAt_setByte_other _ _ _ _ (by omega)]

/-- A byte order's three bytes of a word make the word again. -/
theorem wordOfBytes_bytes (o : ByteOrder) (v : Word) :
    wordOfBytes o (firstByte o v) (middleByte v) (lastByte o v) = v := by
  cases o <;> simp only [wordOfBytes, firstByte, middleByte, lastByte] <;>
    (apply BitVec.eq_of_getLsbD_eq; intro i hi; simp only [BitVec.getLsbD_append, BitVec.getLsbD_extractLsb']; grind)

end Sys2Proof.Machine
end

