-- ==== Sys2Proof/Laws/PerInstr.lean ====
section
/-! SUPPORT. One statement about every instruction as syntax, made per instruction: a well-formed instruction is what
its own word decodes to. -/

namespace Sys2Proof.Laws.EncodesBack

/-- A well-formed instruction's word decodes to that instruction (30_encoding.md R61, R67). -/
def Statement (i : Instr) : Prop := i.wf = true → decodeWord (encode i) = .ok i

/-- What a word decodes to, from its opcode and its operand field. -/
theorem of_fields (i : Instr) (m : Operand) (h : i.operand? = some m) (hm : m.wf = true) :
    decodeWord (encode i) = decodeOpcode i.opcode m := by
  rw [decodeWord, opcodeField_encode, operandField_encode i m h hm]

theorem lda (m : Operand) : Statement (.lda m) := fun h => of_fields (.lda m) m rfl h

theorem ldch (m : Operand) : Statement (.ldch m) := fun h => of_fields (.ldch m) m rfl h

theorem ldl (m : Operand) : Statement (.ldl m) := fun h => of_fields (.ldl m) m rfl h

theorem ldx (m : Operand) : Statement (.ldx m) := fun h => of_fields (.ldx m) m rfl h

theorem sta (m : Operand) : Statement (.sta m) := fun h => of_fields (.sta m) m rfl h

theorem stch (m : Operand) : Statement (.stch m) := fun h => of_fields (.stch m) m rfl h

theorem stl (m : Operand) : Statement (.stl m) := fun h => of_fields (.stl m) m rfl h

theorem stsw (m : Operand) : Statement (.stsw m) := fun h => of_fields (.stsw m) m rfl h

theorem stx (m : Operand) : Statement (.stx m) := fun h => of_fields (.stx m) m rfl h

theorem add (m : Operand) : Statement (.add m) := fun h => of_fields (.add m) m rfl h

theorem sub (m : Operand) : Statement (.sub m) := fun h => of_fields (.sub m) m rfl h

theorem mul (m : Operand) : Statement (.mul m) := fun h => of_fields (.mul m) m rfl h

theorem div (m : Operand) : Statement (.div m) := fun h => of_fields (.div m) m rfl h

theorem and (m : Operand) : Statement (.and m) := fun h => of_fields (.and m) m rfl h

theorem or (m : Operand) : Statement (.or m) := fun h => of_fields (.or m) m rfl h

theorem comp (m : Operand) : Statement (.comp m) := fun h => of_fields (.comp m) m rfl h

theorem tix (m : Operand) : Statement (.tix m) := fun h => of_fields (.tix m) m rfl h

theorem j (m : Operand) : Statement (.j m) := fun h => of_fields (.j m) m rfl h

theorem jeq (m : Operand) : Statement (.jeq m) := fun h => of_fields (.jeq m) m rfl h

theorem jgt (m : Operand) : Statement (.jgt m) := fun h => of_fields (.jgt m) m rfl h

theorem jlt (m : Operand) : Statement (.jlt m) := fun h => of_fields (.jlt m) m rfl h

theorem jsub (m : Operand) : Statement (.jsub m) := fun h => of_fields (.jsub m) m rfl h

theorem rsub : Statement .rsub := fun _ => rfl

theorem td (m : Operand) : Statement (.td m) := fun h => of_fields (.td m) m rfl h

theorem rd (m : Operand) : Statement (.rd m) := fun h => of_fields (.rd m) m rfl h

theorem wd (m : Operand) : Statement (.wd m) := fun h => of_fields (.wd m) m rfl h

end Sys2Proof.Laws.EncodesBack
end

