-- ==== Sys2Proof/Laws/Step.lean ====
section
/-! SUPPORT. What a step can do, said once. -/

namespace Sys2Proof.Machine

/-- A step that answers a next state started with no fault recorded, away from `RET`, fetched a word that decodes, and
ran its instruction. -/
theorem step_next {s t : State} (h : step s = .next t) :
    s.faultMark = none ∧ s.pc ≠ s.params.ret ∧ Admitted s.pc.toNat 3 ∧
      ∃ i, decodeWord (s.wordAt s.pc.toNat) = .ok i ∧ exec i s.advance = .next t := by
  unfold step at h
  split at h
  · exact absurd h (s.raise_ne_next t _)
  · rename_i hm
    split at h
    · cases h
    · rename_i hf
      have hpc : s.pc ≠ s.params.ret := fun e => hf ⟨hm, e⟩
      split at h
      · exact absurd h (s.raise_ne_next t _)
      · rename_i w hw
        unfold State.fetchWord at hw
        split at hw
        · rename_i ha
          obtain rfl := Option.some.inj hw
          split at h
          · exact absurd h (s.advance.raise_ne_next t _)
          · rename_i i hi
            exact ⟨hm, hpc, ha, i, hi, h⟩
        · cases hw

end Sys2Proof.Machine
end

