-- ==== Sys2Proof/Tests/Slice0.lean ====
section
/-! SUPPORT. The model's own tests. Expected values are those of spec/95_test_vectors.md (the row is named before each)
or are worked out by hand from the cited rule; then one witness for the hypotheses of each statement of
Certificates/Slice0/Obligations.lean. -/

open Sys2Proof Sys2Proof.Machine Host

namespace Sys2Proof.Tests

/-! ## Helpers -/

/-- Direct and indexed operands. -/
def dir (n : Nat) : Operand := { mode := .direct, address := n }

def idx (n : Nat) : Operand := { mode := .indexed, address := n }

/-- The next state, if there is one. -/
def nextOf (r : Result) : Option State :=
  match r with
  | .next t => some t
  | _ => none

/-- The recorded fault and the state it is recorded in, if a fault was raised. -/
def faultOf (r : Result) : Option (FaultMark × State) :=
  match r with
  | .fault (.raised f t) => some (f, t)
  | _ => none

/-- The reset state with these bytes in memory. -/
def holding (mem : Memory) : State := { State.reset with mem := mem }

/-- The step that runs the word `w` placed at PC. -/
def runWord (s : State) (w : Nat) : Result := step (s.withFetchWord 24 w)

/-- The reset state with A, the word 256 holding `v`, and the arithmetic parameters. -/
def operands (a v : Word) (o : ArithOverflow) (d : DivRound) : State :=
  { (State.reset.setWord 256 v) with a := a, params := { State.reset.params with arithOverflow := o, divRound := d } }

/-- The reset state with X or A at 1 and a word stored at its place. -/
def farX : State := { State.reset with x := 1 }

/-! ## WellFormed: an ill-formed term for the one check it makes, the 15-bit address -/

theorem test_wf_operand_address : (dir 32767).wf = true ∧ (dir 32768).wf = false ∧ (idx 32768).wf = false := by decide

/-- The check is made of every instruction that has an operand. -/
theorem test_wf_refuses_address_32768 :
    ([Instr.lda, .ldch, .ldl, .ldx, .sta, .stch, .stl, .stsw, .stx, .add, .sub, .mul, .div, .and, .or, .comp, .tix,
      .j, .jeq, .jgt, .jlt, .jsub, .td, .rd, .wd].map fun c => ((c (dir 32768)).wf, (c (idx 32767)).wf)) =
      List.replicate 25 (false, true) ∧ Instr.rsub.wf = true := by decide

/-! ## Decode: the spec's words, one for each constructor, opcode x address written out (30_encoding.md R61, R67) -/

/-- S4, F2, L5, L6. -/
theorem test_decode_loads :
    decodeWord 0b00000000_0_001000000010010#24 = .ok (.lda (dir 0x1012)) ∧
    decodeWord 0b01010000_1_010000000010010#24 = .ok (.ldch (idx 0x2012)) ∧
    decodeWord 0b00001000_0_010000000000000#24 = .ok (.ldl (dir 0x2000)) ∧
    decodeWord 0b00000100_1_000001000000000#24 = .ok (.ldx (idx 0x0200)) := by decide

/-- S4, S6, L12, L13, L14. -/
theorem test_decode_stores :
    decodeWord 0b00001100_0_001000000001111#24 = .ok (.sta (dir 0x100F)) ∧
    decodeWord 0b01010100_1_010000000011101#24 = .ok (.stch (idx 0x201D)) ∧
    decodeWord 0b00010100_0_011000000000000#24 = .ok (.stl (dir 0x3000)) ∧
    decodeWord 0b11101000_0_011000000000000#24 = .ok (.stsw (dir 0x3000)) ∧
    decodeWord 0b00010000_0_011000000000011#24 = .ok (.stx (dir 0x3003)) := by decide

/-- S8, S5, P1, P3. -/
theorem test_decode_arithmetic :
    decodeWord 0b00011000_1_000000101010011#24 = .ok (.add (idx 0x0153)) ∧
    decodeWord 0b00011100_0_000000000001111#24 = .ok (.sub (dir 0x000F)) ∧
    decodeWord 0b00100000_0_000000100100001#24 = .ok (.mul (dir 0x0121)) ∧
    decodeWord 0b00100100_0_000001100101101#24 = .ok (.div (dir 0x032D)) := by decide

/-- R67, R67. -/
theorem test_decode_logical :
    decodeWord 0b01000000_0_111111111111111#24 = .ok (.and (dir 0x7FFF)) ∧
    decodeWord 0b01000100_1_000000000000000#24 = .ok (.or (idx 0)) := by decide

/-- S8, C12. -/
theorem test_decode_compare :
    decodeWord 0b00101000_0_000001110101110#24 = .ok (.comp (dir 0x03AE)) ∧
    decodeWord 0b00101100_1_000000100000000#24 = .ok (.tix (idx 0x0100)) := by decide

/-- J10, S7, J5, S6. -/
theorem test_decode_jumps :
    decodeWord 0b00111100_1_010000000000000#24 = .ok (.j (idx 0x2000)) ∧
    decodeWord 0b00110000_0_001000000000011#24 = .ok (.jeq (dir 0x1003)) ∧
    decodeWord 0b00110100_0_010000000000000#24 = .ok (.jgt (dir 0x2000)) ∧
    decodeWord 0b00111000_0_010000000000011#24 = .ok (.jlt (dir 0x2003)) := by decide

/-- U5. -/
theorem test_decode_subroutine :
    decodeWord 0b01001000_1_110010001010010#24 = .ok (.jsub (idx 0x6452)) ∧
    decodeWord 0b01001100_0_000000000000000#24 = .ok .rsub ∧
    decodeWord 0b01001100_1_000000100100011#24 = .ok .rsub := by decide

/-- S7, S7, D5. -/
theorem test_decode_inputoutput :
    decodeWord 0b11100000_0_001000000011110#24 = .ok (.td (dir 0x101E)) ∧
    decodeWord 0b11011000_0_001000000011110#24 = .ok (.rd (dir 0x101E)) ∧
    decodeWord 0b11011100_0_010000001000000#24 = .ok (.wd (dir 0x2040)) := by decide

/-- F5, F6, F7. -/
theorem test_decode_rejects_unassigned :
    decodeWord 0x010000 = .error (.unassigned 0x01) ∧ decodeWord 0x17202D = .error (.unassigned 0x17) ∧
    decodeWord 0xFF0000 = .error (.unassigned 0xFF) := by decide

/-- R73: an instruction takes exactly 3 bytes. -/
theorem test_decode_bytes :
    decodeBytes [0x50, 0xA0, 0x12, 0x54] = .ok (.ldch (idx 0x2012), [0x54]) ∧
    decodeBytes [0x50, 0xA0] = .error (.truncated 2) ∧ decodeBytes [] = .error (.truncated 0) := by decide

/-- S6. -/
theorem test_encode :
    encode (.ldch (idx 0x2012)) = 0x50A012 ∧ encodeBytes (.tix (dir 0x2028)) = [0x2C, 0x20, 0x28] ∧
    encode .rsub = 0x4C0000 := by decide

theorem test_decodeTableWord :
    decodeTableWord 24 0x50A012 = some (.ldch (idx 0x2012)) ∧ decodeTableWord 24 0x010000 = none := by decide

/-! ## Fetch and addressing (vectors F) -/

/-- F3, and S2: DBC9. -/
theorem test_fetch_F3 :
    (faultOf (runWord { State.reset with x := 0x7777 } 0x00E452)).map (·.1) =
      some (.addressFault .read 0 0xDBC9) := by decide

/-- F4: no backward indexing. -/
theorem test_fetch_F4 :
    (faultOf (runWord { State.reset with x := 0xFFFFFF } 0x008005)).map (·.1) =
      some (.addressFault .read 0 16777220) := by decide

/-- F5, at address 0; the recorded state has PC advanced (60_exceptions.md R171). -/
theorem test_fetch_F5 :
    (faultOf (runWord State.reset 0x010000)).map (fun p => (p.1, p.2.pc)) =
      some (.illegalOpcode 0 0x01, 3) := by decide

/-- F8. -/
theorem test_fetch_F8 :
    (faultOf (step { State.reset with pc := 0x7FFE })).map (·.1) =
      some (.addressFault .fetch 0x7FFE 0x7FFE) := by decide

/-- F9: the last admitted fetch, then the run is over. -/
theorem test_fetch_F9 :
    (nextOf (runWord { State.reset with pc := 0x7FFD } 0x4C0000)).map (fun t => (t.pc, decide t.Final)) =
      some (0xFFFFFF, true) := by decide

/-! ## Loads and stores (vectors L) -/

/-- L2. -/
theorem test_lda :
    (nextOf (runWord (holding [(0x100, 0xFF), (0x101, 0xFF), (0x102, 0xF9)]) 0x000100)).map (fun t => (t.a, t.pc)) = some (0xFFFFF9, 3) := by decide

/-- L4. -/
theorem test_ldch :
    (nextOf (runWord { holding [(0x201C, 0x47)] with a := 0x123400, x := 0x0A } 0x50A012)).map (fun t => t.a) = some 0x123447 := by decide

/-- L5. -/
theorem test_ldl :
    (nextOf (runWord (holding [(0x2001, 0x10), (0x2002, 0x0C)]) 0x082000)).map (fun t => t.l) = some 0x00100C := by decide

/-- L6: TA from the old X. -/
theorem test_ldx :
    (nextOf (runWord { holding [(0x205, 0x09)] with x := 3 } 0x048200)).map (fun t => t.x) = some 9 := by decide

/-- L9: the last admitted word. -/
theorem test_sta :
    (nextOf (runWord { State.reset with a := 0xABCDEF } 0x0C7FFD)).map (fun t => t.mem.drop 3) = some [(0x7FFD, 0xAB), (0x7FFE, 0xCD), (0x7FFF, 0xEF)] := by decide

/-- L8: no byte is written. -/
theorem test_sta_fault :
    (faultOf (runWord { State.reset with a := 0xABCDEF } 0x0C7FFE)).map (fun p => (p.1, p.2.mem)) =
      some (.addressFault .write 0 0x7FFE, [(0, 0x0C), (1, 0x7F), (2, 0xFE)]) := by decide

/-- L10: one byte, its neighbours unchanged. -/
theorem test_stch :
    (nextOf (runWord { holding [(0x1015, 1), (0x1017, 2)] with a := 0xABCD5A } 0x541016)).map (fun t => t.mem.drop 3) = some [(0x1015, 1), (0x1016, 0x5A), (0x1017, 2)] := by decide

/-- L12: the bytes 00 10 06. -/
theorem test_stl :
    (nextOf (runWord { State.reset with l := 0x1006 } 0x143000)).map (fun t => (t.byteAt 0x3000, t.byteAt 0x3001, t.byteAt 0x3002)) = some (0, 0x10, 0x06) := by decide

/-- L14. -/
theorem test_stx :
    (nextOf (runWord { State.reset with x := 0x0B } 0x103003)).map (fun t => (t.byteAt 0x3003, t.byteAt 0x3004, t.byteAt 0x3005)) = some (0, 0, 0x0B) := by decide

/-- L13: the free value, whatever it is; CC unset stores too (R87). -/
theorem test_stsw (s : State) :
    exec (.stsw (dir 0x3000)) { s with cc := .lt } =
      .next (({ s with cc := .lt } : State).setWord 0x3000 (Config.swImage .lt s.swRest)) := by
  unfold exec execStsw State.storeWord
  exact if_pos (by decide : Admitted 0x3000 3)

/-- L13 beside the other registers, from CC unset. -/
theorem test_stsw_keeps_registers :
    (nextOf (runWord { State.reset with a := 7 } 0xE83000)).map (fun t => (t.cc, t.a, t.pc, t.swRest)) =
      some (.unset, 7, 3, 0) := by decide

/-- R42 read the other way round: the two byte orders (90_conflicts.md C1). -/
theorem test_byte_order :
    (holding [(0x100, 0x12), (0x101, 0x34), (0x102, 0x56)]).wordAt 0x100 = 0x123456 ∧
    ({ holding [(0x100, 0x12), (0x101, 0x34), (0x102, 0x56)] with
        params := { State.reset.params with byteOrder := .little } } : State).wordAt 0x100 = 0x563412 := by decide

/-! ## Arithmetic (vectors A) -/

/-- A after the word `w` ran with these operands, the second at 256. -/
def result (a v : Word) (w : Nat) (o : ArithOverflow) (d : DivRound) : Option Word :=
  (nextOf (runWord (operands a v o d) w)).map (·.a)

/-- A1 to A4. -/
theorem test_add :
    result 5 3 0x180100 .wrap .trunc = some 8 ∧ result 0x7FFFFF 1 0x180100 .wrap .trunc = some 0x800000 ∧
    result 0xFFFFFF 1 0x180100 .wrap .trunc = some 0 ∧
    result 0x800000 0x800000 0x180100 .wrap .trunc = some 0 := by decide

/-- A25: A unchanged. -/
theorem test_add_overflow :
    (faultOf (runWord (operands 0x7FFFFF 1 .fault .trunc) 0x180100)).map (fun p => (p.1, p.2.a)) =
      some (.arithmeticOverflow 0, 0x7FFFFF) := by decide

/-- A5 to A8. -/
theorem test_sub :
    result 0x0E 1 0x1C0100 .wrap .trunc = some 0x0D ∧ result 0 1 0x1C0100 .wrap .trunc = some 0xFFFFFF ∧
    result 0x800000 1 0x1C0100 .wrap .trunc = some 0x7FFFFF ∧
    result 3 5 0x1C0100 .wrap .trunc = some 0xFFFFFE := by decide

/-- A10 to A13. -/
theorem test_mul :
    result 0xFFFFFF 0xFFFFFF 0x200100 .wrap .trunc = some 1 ∧
    result 0xFFFFFD 2 0x200100 .wrap .trunc = some 0xFFFFFA ∧
    result 0x1000 0x1000 0x200100 .wrap .trunc = some 0 ∧
    result 0x7FFFFF 2 0x200100 .wrap .trunc = some 0xFFFFFE := by decide

/-- A15 to A19, A22, A23; and P3's last lines, -7 by 2 under floor. -/
theorem test_div :
    result 100 7 0x240100 .wrap .trunc = some 14 ∧ result 0xFFFFF9 2 0x240100 .wrap .trunc = some 0xFFFFFD ∧
    result 7 0xFFFFFE 0x240100 .wrap .trunc = some 0xFFFFFD ∧
    result 0xFFFFF9 0xFFFFFE 0x240100 .wrap .trunc = some 3 ∧ result 0xFFFFFF 2 0x240100 .wrap .trunc = some 0 ∧
    result 0x800000 0xFFFFFF 0x240100 .wrap .trunc = some 0x800000 ∧
    result 0xFFFFF9 2 0x240100 .wrap .floor = some 0xFFFFFC := by decide

/-- A24, A23 under fault. -/
theorem test_div_faults :
    (faultOf (runWord (operands 5 0 .wrap .trunc) 0x240100)).map (fun p => (p.1, p.2.a)) =
      some (.divideByZero 0, 5) ∧
    (faultOf (runWord (operands 0x800000 0xFFFFFF .fault .trunc) 0x240100)).map (·.1) =
      some (.arithmeticOverflow 0) := by decide

/-! ## Logical (vectors G) -/

/-- G1, G4. -/
theorem test_and :
    result 0x123456 0xFF 0x400100 .wrap .trunc = some 0x56 ∧
    result 0xF0F0F0 0x3C3C3C 0x400100 .wrap .trunc = some 0x303030 := by decide

/-- G5, G7. -/
theorem test_or :
    result 0x120056 0x3400 0x440100 .wrap .trunc = some 0x123456 ∧
    result 0xF0F0F0 0x3C3C3C 0x440100 .wrap .trunc = some 0xFCFCFC := by decide

/-! ## Compare (vectors C) -/

/-- CC after COMP. -/
def compared (a v : Word) : Option CC :=
  (nextOf (runWord (operands a v .wrap .trunc) 0x280100)).map (·.cc)

/-- C1 to C6. -/
theorem test_comp :
    compared 3 0x12C = some .lt ∧ compared 0x12C 0x12C = some .eq ∧ compared 0x12D 0x12C = some .gt ∧
    compared 0xFFFFFF 1 = some .lt ∧ compared 1 0xFFFFFF = some .gt ∧ compared 0x800000 0x7FFFFF = some .lt := by
  decide

/-- X and CC after TIX. -/
def tixed (x v : Word) : Option (Word × CC) :=
  (nextOf (runWord { operands 0 v .wrap .trunc with x := x } 0x2C0100)).map (fun t => (t.x, t.cc))

/-- C7 to C11. -/
theorem test_tix :
    tixed 0 0x0B = some (1, .lt) ∧ tixed 0x0A 0x0B = some (0x0B, .eq) ∧ tixed 0x0B 0x0B = some (0x0C, .gt) ∧
    tixed 0xFFFFFF 0 = some (0, .eq) ∧ tixed 0x7FFFFF 0 = some (0x800000, .lt) := by decide

/-- C12: TA from the old X. -/
theorem test_tix_indexed :
    (nextOf (runWord { holding [(0x104, 3)] with x := 2 } 0x2C8100)).map (fun t => (t.x, t.cc)) =
      some (3, .eq) := by decide

/-! ## Jumps and subroutines (vectors J, U) -/

/-- PC after the word `w` ran at 0x1000. -/
def jumped (c : CC) (x : Word) (w : Nat) : Option Word :=
  (nextOf (runWord { State.reset with pc := 0x1000, cc := c, x := x } w)).map (·.pc)

/-- J1, J10, J13. -/
theorem test_j :
    jumped .unset 0 0x3C2003 = some 0x2003 ∧ jumped .lt 6 0x3CA000 = some 0x2006 ∧
    jumped .eq 0 0x3C7FFF = some 0x7FFF := by decide

/-- J11. -/
theorem test_j_fault :
    (faultOf (runWord { State.reset with pc := 0x1000, x := 0x7777 } 0x3CE452)).map (·.1) =
      some (.addressFault .jump 0x1000 0xDBC9) := by decide

/-- J3, J4, J12. -/
theorem test_jeq :
    jumped .eq 0 0x302000 = some 0x2000 ∧ jumped .lt 0 0x302000 = some 0x1003 ∧
    jumped .lt 0x7777 0x30E452 = some 0x1003 := by decide

/-- J9. -/
theorem test_jeq_unset :
    (faultOf (runWord { State.reset with pc := 0x1000 } 0x302000)).map (·.1) = some (.ccUnset 0x1000) := by decide

/-- J5, J6. -/
theorem test_jgt : jumped .gt 0 0x342000 = some 0x2000 ∧ jumped .eq 0 0x342000 = some 0x1003 := by decide

/-- J7, J8. -/
theorem test_jlt : jumped .lt 0 0x382000 = some 0x2000 ∧ jumped .gt 0 0x382000 = some 0x1003 := by decide

/-- U1. -/
theorem test_jsub :
    (nextOf (runWord { State.reset with pc := 0x1003 } 0x482000)).map (fun t => (t.l, t.pc)) =
      some (0x1006, 0x2000) := by decide

/-- U5: L unchanged. -/
theorem test_jsub_fault :
    (faultOf (runWord { State.reset with pc := 0x1003, x := 0x7777 } 0x48E452)).map (fun p => (p.1, p.2.l)) =
      some (.addressFault .jump 0x1003 0xDBC9, 0xFFFFFF) := by decide

/-- U2, F10, U4. -/
theorem test_rsub :
    (nextOf (runWord { State.reset with pc := 0x2009, l := 0x1006 } 0x4C0000)).map (fun t => (t.pc, t.l)) =
      some (0x1006, 0x1006) ∧
    (nextOf (runWord { State.reset with l := 0x9000 } 0x4C8123)).map (·.pc) = some 0x9000 := by decide

/-! ## I/O (vectors D) -/

/-- Byte F1 at 0x101E, byte 05 at 0x2040, with prepared answers. -/
def devices (armed : List Byte) (tests : List Readiness) (reads : List Byte) : State :=
  { holding [(0x101E, 0xF1), (0x2040, 0x05)] with
      a := 0x123456, armed := armed, env := { tests := tests, reads := reads, number := 0 } }

/-- D1, D2. -/
theorem test_td :
    (nextOf (runWord (devices [] [.ready] []) 0xE0101E)).map (fun t => (t.cc, t.armed, t.history)) =
      some (.lt, [0xF1], [.td 0xF1 .ready]) ∧
    (nextOf (runWord (devices [0xF1] [.busy] []) 0xE0101E)).map (fun t => (t.cc, t.armed, t.history)) =
      some (.eq, [], [.td 0xF1 .busy]) := by decide

/-- R130: with no answer prepared the answer is the free value. -/
theorem test_td_free (s : State) :
    ({ s with env := { tests := [], reads := [], number := 4 } } : State).testAnswer 0xF1 =
      Config.devTest 4 s.history 0xF1 := rfl

/-- D3: CC unchanged. -/
theorem test_rd :
    (nextOf (runWord (devices [0xF1] [] [0x41]) 0xD8101E)).map (fun t => (t.a, t.armed, t.history, t.cc)) =
      some (0x123441, [], [.rd 0xF1 0x41], .unset) := by decide

/-- D4. -/
theorem test_rd_not_ready :
    (faultOf (runWord (devices [] [] [0x41]) 0xD8101E)).map (fun p => (p.1, p.2.env.reads)) =
      some (.ioNotReady .rd 0 0xF1, [0x41]) := by decide

/-- D5, with A = 123456. -/
theorem test_wd :
    (nextOf (runWord (devices [0x05] [] []) 0xDC2040)).map (fun t => (t.armed, t.history)) =
      some ([], [.wd 0x05 0x56]) := by decide

/-- D6. -/
theorem test_wd_not_ready :
    (faultOf (runWord (devices [0xF1] [] []) 0xDC2040)).map (·.1) = some (.ioNotReady .wd 0 0x05) := by decide

/-! ## Memory's canonical form -/

/-- Writing what an unlisted address reads as takes the entry off the list. -/
theorem test_memory_write :
    Memory.write [(1, 5), (3, 7)] 2 9 = [(1, 5), (2, 9), (3, 7)] ∧ Memory.write [(1, 5), (3, 7)] 3 0 = [(1, 5)] ∧
    Memory.write [(1, 5), (3, 7)] 2 0 = [(1, 5), (3, 7)] ∧ Memory.wf [(3, 7), (1, 5)] = false ∧
    Memory.wf [(1, 0)] = false ∧ Memory.wf [(32768, 1)] = false ∧ Memory.wf [(0, 1), (32767, 1)] = true := by decide

/-! ## The assembler's notation (30_encoding.md R74 to R79) -/

/-- A source line without a comment. -/
def line (label : Option String) (op : String) (operand : Option String) : SourceLine :=
  { label := label, op := op, operand := operand, comment := none }

/-- S3. -/
theorem test_directives :
    (line (some "EOF") "BYTE" (some "C'EOF'")).stmt = .ok (.byte [0x45, 0x4F, 0x46]) ∧
    (line (some "B1") "BYTE" (some "X'4156'")).stmt = .ok (.byte [0x41, 0x56]) ∧
    (line (some "FIVE") "WORD" (some "5")).stmt = .ok (.word 5) ∧
    (line (some "N") "WORD" (some "-7")).stmt = .ok (.word (-7)) ∧
    Stmt.bytes .big [] (.word (-7)) = .ok [0xFF, 0xFF, 0xF9] ∧
    (line (some "DATA1") "RESW" (some "4")).stmt = .ok (.resw 4) ∧ Stmt.size (.resw 4) = 12 := by decide

/-- S4's program, its operands as the table has them. -/
def program : List SourceLine :=
  [line none "START" (some "1000"), line none "LDA" (some "FIVE"), line none "STA" (some "ALPHA"),
   line none "LDCH" (some "CHARZ"), line none "STCH" (some "C1")] ++
  [line none "RSUB" none, line (some "ALPHA") "RESW" (some "1"), line (some "FIVE") "WORD" (some "5"),
   line (some "CHARZ") "BYTE" (some "C'Z'"), line (some "C1") "RESB" (some "1"), line none "END" none]

/-- S4: 001012 0C100F 501015 541016 4C0000 at 1000, 000005 at 1012, 5A at 1015. -/
theorem test_assemble_S4 :
    assemble .big 0 program = .ok {
      entry := 0x1000
      image := [(0x1000, 0x00), (0x1001, 0x10), (0x1002, 0x12), (0x1003, 0x0C), (0x1004, 0x10), (0x1005, 0x0F),
        (0x1006, 0x50), (0x1007, 0x10), (0x1008, 0x15), (0x1009, 0x54), (0x100A, 0x10), (0x100B, 0x16)] ++
       [(0x100C, 0x4C), (0x100D, 0x00), (0x100E, 0x00), (0x1012, 0x00), (0x1013, 0x00), (0x1014, 0x05),
        (0x1015, 0x5A)] } := by decide

/-- U20 and the model's other refusals. -/
theorem test_assemble_refuses :
    assemble .big 0 [line none "LDA" (some "NONE")] = .error (.undefinedSymbol "NONE") ∧
    assemble .big 0 [line (some "A") "RESB" (some "1"), line (some "A") "RSUB" none] =
      .error (.duplicateSymbol "A") ∧
    assemble .big 0x7FFE [line none "RSUB" none] = .error .outOfMemory ∧
    assemble .big 0 [line none "LDB" (some "A")] = .error (.badLine "LDB") := by decide

/-- U20: a program may fill memory to its last byte; a symbol of value 32,768 and a START address 8000 are refused also
where no byte is generated. -/
theorem test_assemble_bounds :
    assemble .big 0x7FFD [line (some "A") "RSUB" none, line none "RESB" (some "0"), line none "END" none] =
      .ok ⟨0x7FFD, [(0x7FFD, 0x4C), (0x7FFE, 0), (0x7FFF, 0)]⟩ ∧
    assemble .big 0x7FFD [line none "RSUB" none, line (some "B") "RESB" (some "0")] = .error .outOfMemory ∧
    assemble .big 0 [line (some "A") "RSUB" none, line none "START" (some "8000"), line none "END" (some "A")] =
      .error .outOfMemory := by decide

/-- `,X` selects indexed mode (R74; S6). -/
theorem test_operand : operandOf "STR1,X" = ("STR1", .indexed) ∧ operandOf "STR1" = ("STR1", .direct) := by decide

/-! ## Witnesses: for each statement with hypotheses, concrete values that meet them, clause by clause

A word's last admitted address is 32765, a byte's and a jump's 32767. -/

/-- One byte past memory, by an indexed operand of a well-formed instruction. -/
theorem byte_clauses : targetAddr (dir 32767) farX ≤ 32767 ∧ 32767 < targetAddr (idx 32767) farX := by decide

theorem word_clauses : targetAddr (dir 32765) farX + 2 ≤ 32767 ∧ 32767 < targetAddr (dir 32766) farX + 2 := by decide

theorem witness_WordLoadsReplaceTheirRegister :
    targetAddr (dir 32765) farX + 2 ≤ 32767 ∧ 32767 < targetAddr (dir 32766) farX + 2 := word_clauses

theorem witness_LdchLoadsOnlyTheRightmostByte :
    targetAddr (dir 32767) farX ≤ 32767 ∧ 32767 < targetAddr (idx 32767) farX := byte_clauses

theorem witness_WordStoresWriteTheirRegister :
    targetAddr (dir 32765) farX + 2 ≤ 32767 ∧ 32767 < targetAddr (dir 32766) farX + 2 := word_clauses

theorem witness_StswStoresTheStatusWord :
    targetAddr (dir 32765) farX + 2 ≤ 32767 ∧ 32767 < targetAddr (dir 32766) farX + 2 := word_clauses

theorem witness_StchStoresOneByte :
    targetAddr (dir 32767) farX ≤ 32767 ∧ 32767 < targetAddr (idx 32767) farX := byte_clauses

/-- The reset state in little byte order. -/
def little : State := { State.reset with params := { State.reset.params with byteOrder := .little } }

theorem witness_WordReadIsThreeBytesInOrder :
    State.reset.params.byteOrder = .big ∧ little.params.byteOrder = .little := by decide

theorem witness_WordWriteStoresItsThreeBytes :
    Memory.wf State.reset.mem = true ∧ 32765 + 2 ≤ 32767 ∧ State.reset.params.byteOrder = .big ∧
    Memory.wf little.mem = true ∧ little.params.byteOrder = .little ∧ 32764 < 32765 ∧ 32765 + 2 < 32768 ∧
    32766 ≤ 32767 ∧ 32767 ≤ 32767 ∧ ¬ 32766 + 2 ≤ 32767 := by decide

theorem witness_WordReadSeesBytesAsLastWritten :
    Memory.wf State.reset.mem = true ∧ 32765 + 2 ≤ 32767 ∧ State.reset.params.byteOrder = .big ∧
    32764 ≠ 32765 ∧ 32764 ≠ 32766 ∧ 32764 ≠ 32767 := by decide

theorem witness_StoresChangeOnlyTheStoredBytes :
    (∀ i ∈ [Instr.sta (dir 32765), .stl (dir 32765), .stx (dir 32765), .stsw (dir 32765)], ∃ t,
      exec i farX = .next t) ∧ (∃ t, exec (.stch (dir 32767)) farX = .next t) ∧
    targetAddr (dir 32765) farX = 32765 ∧ targetAddr (dir 32767) farX = 32767 := by
  refine ⟨?_, ⟨_, rfl⟩, rfl, rfl⟩
  simp only [List.mem_cons, List.not_mem_nil, or_false, forall_eq_or_imp, forall_eq]
  exact ⟨⟨_, rfl⟩, ⟨_, rfl⟩, ⟨_, rfl⟩, ⟨_, rfl⟩⟩

theorem witness_OnlyStoresChangeMemory :
    (∃ t, exec (.lda (dir 32765)) farX = .next t) ∧ ∀ m, Instr.lda (dir 32765) ≠ .sta m ∧ Instr.lda (dir 32765) ≠ .stl m ∧
      Instr.lda (dir 32765) ≠ .stx m ∧ Instr.lda (dir 32765) ≠ .stsw m ∧ Instr.lda (dir 32765) ≠ .stch m := ⟨⟨_, rfl⟩, by simp⟩

/-- A state at the last instruction address, A and L holding an RSUB word. -/
def storing : State := { State.reset with pc := 32765, a := 0x4C0000, l := 0x4C0000 }

/-- A store exactly at the next instruction, and stores that overlap it in part or reach its last byte. -/
theorem witness_NextFetchSeesTheStore :
    Memory.wf storing.mem = true ∧ storing.faultMark = none ∧ storing.pc ≠ storing.params.ret ∧
    targetAddr (dir 32765) storing = 32765 ∧ storing.pc.toNat = 32765 ∧ 32765 + 2 ≤ 32767 ∧
    decodeWord storing.a = .ok .rsub ∧ decodeWord storing.l = .ok .rsub ∧ storing.params.byteOrder = .big ∧
    (nextOf (exec (.sta (dir 32763)) storing)).isSome = true ∧ (nextOf (exec (.stl (dir 32764)) storing)).isSome = true ∧
    (nextOf (exec (.stx (dir 32765)) storing)).isSome = true ∧
    (nextOf (exec (.stch (dir 32767)) storing)).isSome = true ∧
    (nextOf (exec (.stch (dir 32766)) storing)).map (fun t => decodeWord (t.wordAt 32765)) = some (.ok (.lda (dir 0))) := by decide

theorem witness_NextFetchSeesTheStore_stsw :
    ∃ t, exec (.stsw (dir 32764)) storing = .next t := ⟨_, rfl⟩

/-- Both sides of both bounds, for the three operations. -/
theorem witness_AddSubMulNarrowTheExactResult :
    targetAddr (dir 256) (operands 0x7FFFFF 0 .wrap .trunc) + 2 ≤ 32767 ∧
    (operands 0x7FFFFF 0 .fault .trunc).wordAt 256 = 0 ∧ (operands 0x7FFFFF 1 .fault .trunc).wordAt 256 = 1 ∧
    (operands 0x800000 1 .fault .trunc).params.arithOverflow = .fault ∧
    (0x7FFFFF#24).toInt + (0#24).toInt = 8388607 ∧ 8388607 < (0x7FFFFF#24).toInt + (1#24).toInt ∧
    (0x800000#24).toInt - (0#24).toInt = -8388608 ∧ (0x800000#24).toInt - (1#24).toInt < -8388608 ∧
    (0x7FFFFF#24).toInt * (1#24).toInt = 8388607 ∧ 8388607 < (0x7FFFFF#24).toInt * (2#24).toInt ∧
    32767 < targetAddr (dir 32766) farX + 2 := by decide

theorem witness_DivIsTheSignedRoundedQuotient :
    (∀ d ∈ [DivRound.trunc, .floor, .other], (operands 5 2 .wrap d).params.divRound = d) ∧
    (operands 5 2 .wrap .other).wordAt 256 = 2 ∧ (2#24).toInt ≠ 0 ∧ ¬ (2#24).toInt ∣ (5#24).toInt ∧
    (operands 5 0 .wrap .trunc).wordAt 256 = 0 ∧
    (operands 0x800000 0xFFFFFF .fault .trunc).params.arithOverflow = .fault ∧
    8388607 < Int.tdiv (0x800000#24).toInt (0xFFFFFF#24).toInt ∧
    Int.tdiv (0x7FFFFF#24).toInt (1#24).toInt ≤ 8388607 ∧
    targetAddr (dir 256) (operands 5 2 .wrap .trunc) + 2 ≤ 32767 ∧ 32767 < targetAddr (dir 32766) farX + 2 := by decide

theorem witness_TruncatedDivisionLaw :
    (operands 0xFFFFF9 2 .wrap .trunc).wordAt (targetAddr (dir 256) (operands 0xFFFFF9 2 .wrap .trunc)) = 2 ∧
    (operands 0xFFFFF9 2 .wrap .trunc).params.divRound = .trunc ∧ ¬ ((0xFFFFF9 : Word) = 0x800000 ∧ (2 : Word) = 0xFFFFFF) ∧
    (nextOf (exec (.div (dir 256)) (operands 0xFFFFF9 2 .wrap .trunc))).isSome = true := by decide

theorem witness_WrappedArithmeticIsModulo24Bits :
    State.reset.params.arithOverflow = .wrap ∧ targetAddr (dir 32765) State.reset + 2 ≤ 32767 := by decide

theorem witness_AndOrActBitByBit :
    targetAddr (dir 32765) farX + 2 ≤ 32767 ∧ 32767 < targetAddr (dir 32766) farX + 2 := word_clauses

theorem witness_CompComparesSignedAWithTheWord :
    (0x800000#24).toInt < (0x7FFFFF#24).toInt ∧ (operands 5 5 .wrap .trunc).a = (operands 5 5 .wrap .trunc).wordAt 256 ∧
    (operands 0x800000 0x7FFFFF .wrap .trunc).wordAt 256 = 0x7FFFFF ∧
    (operands 1 0xFFFFFF .wrap .trunc).wordAt 256 = 0xFFFFFF ∧ (0xFFFFFF#24).toInt < (1#24).toInt ∧ targetAddr (dir 32765) farX + 2 ≤ 32767 ∧ 32767 < targetAddr (dir 32766) farX + 2 := by decide

theorem witness_TixIncrementsThenCompares :
    (BitVec.ofInt 24 ((0x7FFFFF#24).toInt + 1)).toInt < (0#24).toInt ∧
    BitVec.ofInt 24 ((0x0A#24).toInt + 1) = 0x0B#24 ∧ (0x0B#24).toInt < (BitVec.ofInt 24 ((0x0B#24).toInt + 1)).toInt ∧
    (0x7FFFFE#24).toInt + 1 ≤ 8388607 ∧ 8388607 < (0x7FFFFF#24).toInt + 1 ∧
    (operands 0 0 .wrap .trunc).params.arithOverflow = .wrap ∧
    (operands 0 0 .fault .trunc).params.arithOverflow = .fault ∧ targetAddr (dir 32765) farX + 2 ≤ 32767 ∧ 32767 < targetAddr (dir 32766) farX + 2 := by decide

theorem witness_JumpGoesToTheTarget :
    targetAddr (dir 32767) farX ≤ 32767 ∧ 32767 < targetAddr (idx 32767) farX := byte_clauses

/-- The reset state with a condition code and X = 1. -/
def coded (c : CC) : State := { farX with cc := c }

theorem witness_ConditionalJumpsFollowCC :
    (coded .unset).cc = .unset ∧ (coded .eq).cc = .eq ∧ (coded .gt).cc = .gt ∧ (coded .lt).cc = .lt ∧
    (coded .lt).cc ≠ .unset ∧ (coded .lt).cc ≠ .eq ∧ (coded .lt).cc ≠ .gt ∧ (coded .eq).cc ≠ .lt ∧
    targetAddr (dir 32767) (coded .eq) ≤ 32767 ∧ 32767 < targetAddr (idx 32767) (coded .eq) := by decide

theorem witness_ExactlyOneConditionalJumpIsTaken :
    ∀ c ∈ [CC.lt, .eq, .gt], (coded c).cc ≠ .unset ∧ targetAddr (dir 32767) (coded c) ≤ 32767 ∧
      (coded c).pc.toNat ≠ targetAddr (dir 32767) (coded c) := by decide

theorem witness_JsubSavesTheReturnAddress :
    targetAddr (dir 32767) farX ≤ 32767 ∧ 32767 < targetAddr (idx 32767) farX := byte_clauses

theorem witness_RsubReturnsAfterTheLatestJsub :
    (∃ t u, exec (.jsub (dir 32767)) farX = .next t ∧ u.l = t.l ∧ u ≠ t) ∧
    ∃ v, exec (.jsub (dir 32767)) { farX with l := 0x1234 } = .next v := ⟨⟨_, farX.setL farX.pc, rfl, rfl, by decide⟩, ⟨_, rfl⟩⟩

theorem witness_TdSetsCCAndArmsByTheAnswer :
    (devices [] [] []).byteAt (targetAddr (dir 0x101E) (devices [] [] [])) = 0xF1 ∧
    (devices [] [.ready] []).testAnswer 0xF1 = .ready ∧ (devices [0xF1] [.busy] []).testAnswer 0xF1 = .busy ∧
    targetAddr (dir 32767) farX ≤ 32767 ∧ 32767 < targetAddr (idx 32767) farX := by decide

theorem witness_RdReadsOneByteFromAnArmedDevice :
    (devices [0xF1] [] []).byteAt (targetAddr (dir 0x101E) (devices [0xF1] [] [])) = 0xF1 ∧
    0xF1#8 ∈ (devices [0xF1] [] []).armed ∧ 0xF1#8 ∉ (devices [] [] []).armed ∧ targetAddr (dir 32767) farX ≤ 32767 ∧ 32767 < targetAddr (idx 32767) farX := by decide

theorem witness_WdWritesOneByteToAnArmedDevice :
    (devices [0x05] [] []).byteAt (targetAddr (dir 0x2040) (devices [0x05] [] [])) = 0x05 ∧
    0x05#8 ∈ (devices [0x05] [] []).armed ∧ 0x05#8 ∉ (devices [0xF1] [] []).armed ∧ targetAddr (dir 32767) farX ≤ 32767 ∧ 32767 < targetAddr (idx 32767) farX := by decide

theorem witness_EveryDeviceAnswerIsPossible :
    targetAddr (dir 32767) (devices [0] [] []) ≤ 32767 ∧
    (devices [0] [] []).byteAt (targetAddr (dir 32767) (devices [0] [] [])) ∈ (devices [0] [] []).armed := by decide

theorem witness_HistoryGrowsByTheOneRequest :
    (∃ t, exec (.lda (dir 0)) farX = .next t) ∧ (∃ t, exec (.td (dir 0x101E)) (devices [] [.busy] []) = .next t) ∧
    (∃ t, exec (.rd (dir 0x101E)) (devices [0xF1] [] [7]) = .next t) ∧
    ∃ t, exec (.wd (dir 0x2040)) (devices [0x05] [] []) = .next t := ⟨⟨_, rfl⟩, ⟨_, rfl⟩, ⟨_, rfl⟩, ⟨_, rfl⟩⟩

theorem witness_OnlyTheNamedInstructionsWriteA :
    (∃ t, exec (.ldch (dir 0)) farX = .next t) ∧ (∃ t, exec .rsub farX = .next t) ∧
    (∀ m, Instr.ldch (dir 0) ≠ .lda m ∧ Instr.ldch (dir 0) ≠ .add m ∧ Instr.ldch (dir 0) ≠ .sub m ∧
      Instr.ldch (dir 0) ≠ .mul m ∧ Instr.ldch (dir 0) ≠ .div m ∧ Instr.ldch (dir 0) ≠ .and m ∧
      Instr.ldch (dir 0) ≠ .or m) ∧
    (∀ m, Instr.rsub ≠ .lda m ∧ Instr.rsub ≠ .add m ∧ Instr.rsub ≠ .sub m ∧ Instr.rsub ≠ .mul m ∧
      Instr.rsub ≠ .div m ∧ Instr.rsub ≠ .and m ∧ Instr.rsub ≠ .or m) ∧
    ∀ m, Instr.rsub ≠ .ldch m ∧ Instr.rsub ≠ .rd m := ⟨⟨_, rfl⟩, ⟨_, rfl⟩, by simp, by simp, by simp⟩

theorem witness_OnlyTheNamedInstructionsWriteXAndL :
    (∃ t, exec .rsub farX = .next t) ∧ (∀ m, Instr.rsub ≠ .ldx m ∧ Instr.rsub ≠ .tix m) ∧
    ∀ m, Instr.rsub ≠ .ldl m ∧ Instr.rsub ≠ .jsub m := ⟨⟨_, rfl⟩, by simp, by simp⟩

theorem witness_OnlyJumpsAndRsubWritePC :
    (∃ t, exec .rsub farX = .next t) ∧ ∃ t, exec (.j (dir 32767)) farX = .next t := ⟨⟨_, rfl⟩, ⟨_, rfl⟩⟩

theorem witness_OnlyCompTixTdWriteCC :
    (∃ t, exec .rsub farX = .next t) ∧ (∀ m, Instr.rsub ≠ .comp m ∧ Instr.rsub ≠ .tix m ∧ Instr.rsub ≠ .td m) ∧
    (∃ t, exec (.comp (dir 32765)) farX = .next t) ∧ (∃ t, exec (.tix (dir 32765)) farX = .next t) ∧
    ∃ t, exec (.td (dir 0x101E)) (devices [] [.busy] []) = .next t := ⟨⟨_, rfl⟩, by simp, ⟨_, rfl⟩, ⟨_, rfl⟩, ⟨_, rfl⟩⟩

theorem witness_NoInstructionChangesSwRestParamsOrMark :
    (∃ t, exec (.comp (dir 32765)) (coded .gt) = .next t) ∧ (coded .gt).cc ≠ .unset := ⟨⟨_, rfl⟩, by decide⟩

theorem witness_OtherInstructionsDoNotReadA :
    (∃ t, exec (.stch (dir 32767)) farX = .next t) ∧ (0x123400#24).extractLsb' 0 8 = farX.a.extractLsb' 0 8 ∧
    (∃ t, exec .rsub farX = .next t) ∧
    ∀ m, Instr.rsub ≠ .sta m ∧ Instr.rsub ≠ .add m ∧ Instr.rsub ≠ .sub m ∧ Instr.rsub ≠ .mul m ∧ Instr.rsub ≠ .div m ∧
      Instr.rsub ≠ .and m ∧ Instr.rsub ≠ .or m ∧ Instr.rsub ≠ .comp m ∧ Instr.rsub ≠ .stch m ∧ Instr.rsub ≠ .wd m ∧
      Instr.rsub ≠ .lda m ∧ Instr.rsub ≠ .ldch m ∧ Instr.rsub ≠ .rd m := ⟨⟨_, rfl⟩, by decide, ⟨_, rfl⟩, by simp⟩

theorem witness_DirectInstructionsDoNotReadX :
    (∀ m, (Instr.lda (dir 32765)).operand? = some m → m.mode = .direct) ∧
    (∀ m, Instr.lda (dir 32765) ≠ .stx m ∧ Instr.lda (dir 32765) ≠ .tix m ∧ Instr.lda (dir 32765) ≠ .ldx m) ∧
    ∃ t, exec (.lda (dir 32765)) farX = .next t := by
  refine ⟨?_, by simp, ⟨_, rfl⟩⟩
  simp [Instr.operand?, dir]

theorem witness_OtherInstructionsDoNotReadLOrCC :
    (∃ t, exec (.lda (dir 32765)) farX = .next t) ∧
    (∀ m, Instr.lda (dir 32765) ≠ .stl m ∧ Instr.lda (dir 32765) ≠ .rsub ∧ Instr.lda (dir 32765) ≠ .ldl m ∧
      Instr.lda (dir 32765) ≠ .jsub m) ∧
    ∀ m, Instr.lda (dir 32765) ≠ .jeq m ∧ Instr.lda (dir 32765) ≠ .jgt m ∧ Instr.lda (dir 32765) ≠ .jlt m ∧
      Instr.lda (dir 32765) ≠ .stsw m ∧ Instr.lda (dir 32765) ≠ .comp m ∧ Instr.lda (dir 32765) ≠ .tix m ∧
      Instr.lda (dir 32765) ≠ .td m := ⟨⟨_, rfl⟩, by simp, by simp⟩

/-- One instruction for each fault it may raise, in a state where it does. -/
theorem each_fault :
    (faultOf (exec (.lda (dir 32766)) farX)).map (·.1) = some (.addressFault .read (farX.pc - 3) 32766) ∧
    (faultOf (exec (.rd (idx 32767)) farX)).map (·.1) = some (.addressFault .read (farX.pc - 3) 32768) ∧
    (faultOf (exec (.sta (dir 32766)) farX)).map (·.1) = some (.addressFault .write (farX.pc - 3) 32766) ∧
    (faultOf (exec (.stch (idx 32767)) farX)).map (·.1) = some (.addressFault .write (farX.pc - 3) 32768) ∧
    (faultOf (exec (.j (idx 32767)) farX)).map (·.1) = some (.addressFault .jump (farX.pc - 3) 32768) ∧
    (faultOf (exec (.jeq (dir 0)) farX)).map (·.1) = some (.ccUnset (farX.pc - 3)) ∧
    (faultOf (exec (.div (dir 0)) farX)).map (·.1) = some (.divideByZero (farX.pc - 3)) ∧
    (faultOf (exec (.add (dir 256)) (operands 0x7FFFFF 1 .fault .trunc))).map (·.1) =
      some (.arithmeticOverflow 0xFFFFFD) ∧
    (faultOf (exec (.rd (dir 0)) farX)).map (·.1) = some (.ioNotReady .rd (farX.pc - 3) 0) ∧
    (faultOf (exec (.wd (dir 0)) farX)).map (·.1) = some (.ioNotReady .wd (farX.pc - 3) 0) := by decide

/-- One for each disjunct of the conclusion; `each_fault` names the marks. -/
theorem witness_InstructionFaultsArePrecise :
    (∃ f u, exec (.lda (dir 32766)) farX = .fault (.raised f u)) ∧ (∃ f u, exec (.stch (idx 32767)) farX = .fault (.raised f u)) ∧
    (∃ f u, exec (.jsub (idx 32767)) farX = .fault (.raised f u)) ∧ (∃ f u, exec (.jgt (dir 0)) farX = .fault (.raised f u)) ∧
    (∃ f u, exec (.div (dir 0)) farX = .fault (.raised f u)) ∧
    (∃ f u, exec (.add (dir 256)) (operands 0x7FFFFF 1 .fault .trunc) = .fault (.raised f u)) ∧
    ∃ f u, exec (.wd (dir 0)) farX = .fault (.raised f u) := ⟨⟨_, _, rfl⟩, ⟨_, _, rfl⟩, ⟨_, _, rfl⟩, ⟨_, _, rfl⟩, ⟨_, _, rfl⟩, ⟨_, _, rfl⟩, ⟨_, _, rfl⟩⟩

/-- One for each clause; `each_fault` names the marks. -/
theorem witness_EachFaultIsRaisedByItsInstructions :
    (∃ f u, exec (.lda (dir 32766)) farX = .fault (.raised f u)) ∧ (∃ f u, exec (.stch (idx 32767)) farX = .fault (.raised f u)) ∧
    (∃ f u, exec (.jsub (idx 32767)) farX = .fault (.raised f u)) ∧ (∃ f u, exec (.jgt (dir 0)) farX = .fault (.raised f u)) ∧
    (∃ f u, exec (.div (dir 0)) farX = .fault (.raised f u)) ∧
    (∃ f u, exec (.add (dir 256)) (operands 0x7FFFFF 1 .fault .trunc) = .fault (.raised f u)) ∧
    ∃ f u, exec (.wd (dir 0)) farX = .fault (.raised f u) := ⟨⟨_, _, rfl⟩, ⟨_, _, rfl⟩, ⟨_, _, rfl⟩, ⟨_, _, rfl⟩, ⟨_, _, rfl⟩, ⟨_, _, rfl⟩, ⟨_, _, rfl⟩⟩

/-- At the last address an instruction can be fetched from, and one beyond it. -/
def last : State := { State.reset with pc := 32765 }

def beyond : State := { State.reset with pc := 32766 }

theorem witness_StepRunsTheDecodedInstruction :
    last.faultMark = none ∧ last.pc ≠ last.params.ret ∧ last.pc.toNat + 2 ≤ 32767 ∧
    decodeWord (last.wordAt last.pc.toNat) = .ok (.lda (dir 0)) := by decide

theorem witness_StepFaultsOnAFetchBeyondMemoryOrAnUnassignedOpcode :
    beyond.faultMark = none ∧ beyond.pc ≠ beyond.params.ret ∧ 32767 < beyond.pc.toNat + 2 ∧
    (last.withFetchWord 24 0x010000).pc.toNat + 2 ≤ 32767 ∧
    ∀ i : Instr, i.opcode ≠ ((last.withFetchWord 24 0x010000).wordAt last.pc.toNat).extractLsb' 16 8 := by
  refine ⟨by decide, by decide, by decide, by decide, fun i => ?_⟩
  have h : ((last.withFetchWord 24 0x010000).wordAt last.pc.toNat).extractLsb' 16 8 = 0x01#8 := by decide
  rw [h]
  cases i <;> simp [Instr.opcode]

theorem witness_MarkedStateTakesNoStep :
    (last.record (.ccUnset 0)).faultMark = some (.ccUnset 0) := rfl

theorem witness_StepIsRefusedExactlyWhenTheRunIsOver :
    ∃ r, step { State.reset with pc := 0xFFFFFF } = .refused r := ⟨_, rfl⟩

theorem witness_PlacedWordIsTheNextInstruction :
    Memory.wf last.mem = true ∧ last.faultMark = none ∧ last.pc ≠ last.params.ret ∧ last.pc.toNat + 2 ≤ 32767 ∧
    decodeTableWord 24 0x50A012 = some (.ldch (idx 0x2012)) := by decide

theorem witness_DecodeOfEncodeIsTheInstruction :
    (Instr.tix (idx 32767)).wf = true ∧ Instr.rsub.wf = true := by decide

theorem witness_EncodeOfDecodeIsTheWord :
    decodeWord 0xDCFFFF = .ok (.wd (idx 32767)) ∧ Instr.wd (idx 32767) ≠ .rsub ∧ decodeWord 0x4C8123 = .ok .rsub := by decide

theorem witness_ExactlyTheAssignedOpcodesDecode :
    ((0xE80000#24).extractLsb' 16 8).toNat ∈ [0x00, 0x04, 0xE8] ∧ ((0xE90000#24).extractLsb' 16 8).toNat = 233 := by decide

theorem witness_TargetAddressIsThePlainSum :
    ({ State.reset with x := 0x7777 } : State).x = 0x7777 := rfl

/-- A launch at the last entry, with a byte at the last address. -/
def lastLaunch : Launch := { bareLaunch with entry := 32765, image := [(32767, 7)] }

theorem witness_LaunchStateIsAsTheSpecSays :
    lastLaunch.admitted = true ∧ (32767, 7) ∈ lastLaunch.image ∧
    lastLaunch.image.Pairwise (fun c e => c.1 ≠ e.1) ∧ ∀ c ∈ lastLaunch.image, c.1 ≠ 32766 := by decide

/-- A state where a TD has armed device F1, and RD has its byte prepared. -/
def armedF1 : State := { devices [0xF1] [] [0x41] with history := [.td 0xF1 .ready] }.withFetchWord 24 0xD8101E

/-- It meets the device invariant. -/
theorem armedF1_devices : DeviceInv armedF1 := by
  refine ⟨by decide, fun d => ?_⟩
  have h := armedAfter_ready [] 0xF1 d
  simp only [ArmedAfter, latestEvent, List.filter_nil, List.getLast?_nil, reduceCtorEq, or_false] at h
  show d ∈ [(0xF1 : Byte)] ↔ ArmedAfter ([] ++ [.td 0xF1 .ready]) d
  rw [List.mem_singleton]
  exact h.symm

/-- Its history holds no transfer yet. -/
theorem armedF1_disciplined : Disciplined armedF1.history := by
  intro before e later h ht
  have h' : [IOEvent.td 0xF1 .ready] = before ++ e :: later := h
  cases before with
  | nil =>
    simp only [List.nil_append, List.cons.injEq] at h'
    rw [← h'.1] at ht
    cases ht
  | cons b l => simp at h'

theorem witness_StepKeepsMemoryCanonical :
    ∃ t, MemoryInv armedF1 ∧ step armedF1 = .next t := ⟨_, by decide, rfl⟩

theorem witness_StepKeepsArmedComputedFromHistory :
    ∃ t, DeviceInv armedF1 ∧ step armedF1 = .next t := ⟨_, armedF1_devices, rfl⟩

theorem witness_StepKeepsTransfersDisciplined :
    ∃ t, DeviceInv armedF1 ∧ Disciplined armedF1.history ∧ step armedF1 = .next t := ⟨_, armedF1_devices, armedF1_disciplined, rfl⟩

theorem witness_ReachableStatesAreSound :
    ∃ t, lastLaunch.admitted = true ∧ Reaches lastLaunch.state t ∧ t ≠ lastLaunch.state := ⟨_, by decide, .later .start rfl, by decide⟩

theorem witness_StatementsGenerateTheirBytes :
    addressOf [("ALPHA", 32767)] "ALPHA" = .ok 32767 ∧ 32767 ≤ 32767 ∧
    instrOf "LDA" ⟨.indexed, 32767⟩ = some (.lda ⟨.indexed, 32767⟩) ∧
    (line none "END" none).stmt = .ok (.finish none) ∧ (line none "START" (some "1000")).stmt = .ok (.start (some 4096)) ∧
    placeFrom 4096 [] = .ok [] ∧ (line (some "N") "RESW" (some "2")).stmt = .ok (.resw 2) ∧
    placeFrom (4096 + Stmt.size (.resw 2)) [line none "RSUB" none] = .ok [⟨none, 4102, .rsub⟩] := by decide

theorem witness_AssembledProgramsCanBeLaunched :
    (∃ g, assemble .big 0 program = .ok g ∧ Memory.wf bareLaunch.initMem = true ∧
      ({ bareLaunch with entry := g.entry, image := g.image } : Launch).image = g.image) ∧
    ∃ ps, placeFrom 0 program = .ok ps ∧ (∃ q ∈ ps, q.label ≠ none) ∧ ∃ q ∈ ps, q.stmt = .start (some 0x1000) := by
  refine ⟨⟨_, test_assemble_S4, rfl, rfl⟩, _, rfl, ?_, ?_⟩
  · exact ⟨⟨some "ALPHA", 0x100F, .resw 1⟩, by decide, by decide⟩
  · exact ⟨⟨none, 0x1000, .start (some 0x1000)⟩, by decide, rfl⟩

end Sys2Proof.Tests
end

section
/-! Proofs of the state's obligations (10_state.md, 70_reset_and_hazards.md R190).

What an instruction changes is read off `Effect`, one case per constructor; what it does not read is the converse
(`Effect.exec_eq`) applied at the state with the register replaced. -/

namespace Sys2Proof.Machine

/-! ## The rightmost byte of a register -/

theorem withRmb_high (v : Word) (b : Byte) : (withRmb v b).extractLsb' 8 16 = v.extractLsb' 8 16 :=
  BitVec.extractLsb'_append_eq_left

theorem withRmb_low (v : Word) (b : Byte) : (withRmb v b).extractLsb' 0 8 = b :=
  BitVec.extractLsb'_append_eq_right

/-! ## Effects are executions -/

theorem State.narrowThen_of {s : State} {z : Int} (rest : Word → Result)
    (h : s.params.arithOverflow = .wrap ∨ Fits z) : s.narrowThen z rest = rest (trunc24 z) := by
  refine if_neg fun ⟨ho, hz⟩ => ?_
  rcases h with hw | hf
  · rw [hw] at ho
    cases ho
  · exact hz hf

theorem State.targetThen_of {s : State} {ta : Nat} (rest : Word → Result) (h : ta ≤ lastAddress) :
    s.targetThen ta rest = rest (trunc24 ta) := if_neg (Nat.not_lt.mpr h)

theorem State.jumpTo_of {s : State} {ta : Nat} (h : ta ≤ lastAddress) :
    s.jumpTo ta = .next (s.setPc (trunc24 ta)) := State.targetThen_of _ h

theorem State.jumpWhen_taken {s : State} {c : CC} {ta : Nat} (hu : c ≠ .unset) (hc : s.cc = c)
    (h : ta ≤ lastAddress) : s.jumpWhen c ta = .next (s.setPc (trunc24 ta)) := by
  rw [State.jumpWhen, if_neg (hc ▸ hu), if_pos hc, State.jumpTo_of h]

theorem State.jumpWhen_notTaken {s : State} {c : CC} {ta : Nat} (hu : s.cc ≠ .unset) (hc : s.cc ≠ c) :
    s.jumpWhen c ta = .next s := by
  rw [State.jumpWhen, if_neg hu, if_neg hc]

theorem State.armedThen_of {s : State} {k : TransferKind} {d : Byte} (rest : Result) (h : d ∈ s.armed) :
    s.armedThen k d rest = rest := if_pos h

/-- The converse of `exec_effect`: an effect is what its instruction answers. -/
theorem Effect.exec_eq {s t : State} {i : Instr} (h : Effect s i t) : exec i s = .next t := by
  cases h with
  | lda m ha | ldl m ha | ldx m ha | and m ha | or m ha | comp m ha | sta m ha | stl m ha | stx m ha | stsw m ha
  | ldch m ha | stch m ha | td m ha => exact if_pos ha
  | add m ha hf => rw [exec, execAdd, State.readWordThen_of s _ _ ha, State.narrowThen_of _ hf]
  | sub m ha hf => rw [exec, execSub, State.readWordThen_of s _ _ ha, State.narrowThen_of _ hf]
  | mul m ha hf => rw [exec, execMul, State.readWordThen_of s _ _ ha, State.narrowThen_of _ hf]
  | tix m ha hf => rw [exec, execTix, State.readWordThen_of s _ _ ha, State.narrowThen_of _ hf]
  | div m ha hz hf => rw [exec, execDiv, State.readWordThen_of s _ _ ha, if_neg hz, State.narrowThen_of _ hf]
  | j m ht => exact State.jumpTo_of ht
  | jeq m hc ht | jgt m hc ht | jlt m hc ht => exact State.jumpWhen_taken (by decide) hc ht
  | jeqNot m hu hc | jgtNot m hu hc | jltNot m hu hc => exact State.jumpWhen_notTaken hu hc
  | jsub m ht => rw [exec, execJsub, State.targetThen_of _ ht]
  | rsub => rfl
  | rd m ha hr => rw [exec, execRd, State.readByteThen_of s _ _ ha, State.armedThen_of _ hr]
  | wd m ha hr => rw [exec, execWd, State.readByteThen_of s _ _ ha, State.armedThen_of _ hr]

/-! ## Memory stays canonical -/

theorem Effect.mem_wf {s t : State} {i : Instr} (h : Effect s i t) (hs : MemoryInv s) : MemoryInv t := by
  cases h with
  | sta m ha | stl m ha | stx m ha | stsw m ha => exact State.setWord_wf s _ _ hs ha
  | stch m ha => exact State.setByte_wf s _ _ hs ha
  | _ => exact hs

/-- Settles O55: only the stores write memory, and each keeps it canonical inside the bounds it checked. -/
theorem stepKeepsMemoryCanonical : Obligations.StepKeepsMemoryCanonical := by
  intro s t hs h
  obtain ⟨-, -, -, i, -, hi⟩ := step_next h
  exact (exec_effect hi).mem_wf hs

/-! ## The device space -/

theorem Effect.history_eq_or_append {s t : State} {i : Instr} (h : Effect s i t) :
    (t.history = s.history ∧ t.armed = s.armed ∧ t.env = s.env ∧ ∀ m, i ≠ .td m ∧ i ≠ .rd m ∧ i ≠ .wd m) ∨
    (∃ m e, t.history = s.history ++ [e] ∧ e.device = s.byteAt (targetAddr m s) ∧
      ((i = .td m ∧ ∃ r, e = .td e.device r) ∨ (i = .rd m ∧ e = .rd e.device (t.a.extractLsb' 0 8)) ∨
        (i = .wd m ∧ e = .wd e.device (s.a.extractLsb' 0 8)))) := by
  cases h with
  | td m _ => exact .inr ⟨m, _, rfl, rfl, .inl ⟨rfl, _, rfl⟩⟩
  | rd m _ _ =>
    exact .inr ⟨m, _, rfl, rfl, .inr (.inl ⟨rfl, congrArg (IOEvent.rd _) (withRmb_low s.a _).symm⟩)⟩
  | wd m _ _ => exact .inr ⟨m, _, rfl, rfl, .inr (.inr ⟨rfl, rfl⟩)⟩
  | _ => exact .inl ⟨rfl, rfl, rfl, by simp⟩

/-- Settles O29: the device space is touched by the three I/O instructions alone. -/
theorem historyGrowsByTheOneRequest : Obligations.HistoryGrowsByTheOneRequest :=
  fun _ _ _ h => (exec_effect h).history_eq_or_append

/-- `DeviceInv` speaks of the armed devices and the history alone. -/
theorem DeviceInv.congr {s t : State} (h : DeviceInv s) (ha : t.armed = s.armed) (hh : t.history = s.history) :
    DeviceInv t where
  canonical := ha ▸ h.canonical
  computed := by rw [ha, hh]; exact h.computed

theorem DeviceInv.arm {s t : State} {d : Byte} (h : DeviceInv s) (ha : t.armed = armDevice s.armed d)
    (hh : t.history = s.history ++ [.td d .ready]) : DeviceInv t where
  canonical := ha ▸ armDevice_wf s.armed d h.canonical
  computed e := by rw [ha, hh, mem_armDevice, armedAfter_ready, h.computed]

theorem DeviceInv.disarm {s t : State} {v : IOEvent} (h : DeviceInv s) (hv : v ≠ .td v.device .ready)
    (ha : t.armed = disarmDevice s.armed v.device) (hh : t.history = s.history ++ [v]) : DeviceInv t where
  canonical := ha ▸ disarmDevice_wf s.armed _ h.canonical
  computed e := by rw [ha, hh, mem_disarmDevice, armedAfter_disarmed _ _ _ hv, h.computed]

theorem DeviceInv.devTested {s : State} (h : DeviceInv s) (d : Byte) (r : Readiness) : DeviceInv (s.devTested d r) := by
  cases r with
  | ready => exact h.arm rfl rfl
  | busy => exact h.disarm (v := .td d .busy) (by simp) rfl rfl

theorem Effect.deviceInv {s t : State} {i : Instr} (h : Effect s i t) (hs : DeviceInv s) : DeviceInv t := by
  cases h with
  | td m _ => exact (hs.devTested _ _).congr rfl rfl
  | rd m _ _ => exact hs.disarm (v := .rd _ _) (by simp) rfl rfl
  | wd m _ _ => exact hs.disarm (v := .wd _ _) (by simp) rfl rfl
  | _ => exact hs.congr rfl rfl

/-- Settles O56: each I/O instruction changes `armed` as its event changes what the history says; no other
instruction, and not the fetch, touches either. -/
theorem stepKeepsArmedComputedFromHistory : Obligations.StepKeepsArmedComputedFromHistory := by
  intro s t hs h
  obtain ⟨-, -, -, i, -, hi⟩ := step_next h
  exact (exec_effect hi).deviceInv (hs.congr rfl rfl)

/-! ## Which instruction writes which register -/

/-- Settles O30: the frame of A, the writers of its rightmost byte keeping the rest. -/
theorem onlyTheNamedInstructionsWriteA : Obligations.OnlyTheNamedInstructionsWriteA := by
  intro i s t h hn
  cases exec_effect h with
  | lda m _ | add m _ _ | sub m _ _ | mul m _ _ | div m _ _ _ | and m _ | or m _ => exact absurd (hn m) (by simp)
  | ldch m _ | rd m _ _ => exact ⟨withRmb_high s.a _, fun hb => absurd (hb m) (by simp)⟩
  | _ => exact ⟨rfl, fun _ => rfl⟩

/-- Settles O31: the frames of X and L. -/
theorem onlyTheNamedInstructionsWriteXAndL : Obligations.OnlyTheNamedInstructionsWriteXAndL := by
  intro i s t h
  cases exec_effect h with
  | ldx m _ | tix m _ _ => exact ⟨fun hx => absurd (hx m) (by simp), fun _ => rfl⟩
  | ldl m _ | jsub m _ => exact ⟨fun _ => rfl, fun hl => absurd (hl m) (by simp)⟩
  | _ => exact ⟨fun _ => rfl, fun _ => rfl⟩

/-- A jump's checked target is kept whole by its narrowing to PC. -/
theorem trunc24_toNat_of_inMemory {n : Nat} (h : n ≤ lastAddress) : (trunc24 n).toNat = n :=
  trunc24_toNat n (Nat.lt_of_le_of_lt h (by decide))

/-- Settles O32: PC is written by the taken jumps, JSUB and RSUB. -/
theorem onlyJumpsAndRsubWritePC : Obligations.OnlyJumpsAndRsubWritePC := by
  intro i s t h
  cases exec_effect h with
  | rsub => exact .inr (.inl ⟨rfl, rfl⟩)
  | j m ht | jsub m ht | jeq m _ ht | jgt m _ ht | jlt m _ ht =>
    exact .inr (.inr ⟨m, by simp, trunc24_toNat_of_inMemory ht, ht⟩)
  | _ => exact .inl rfl

theorem readinessCC_ne_gt (r : Readiness) : readinessCC r ≠ .gt := by cases r <;> decide

/-- Settles O33: the writers of CC and the values they give it. -/
theorem onlyCompTixTdWriteCC : Obligations.OnlyCompTixTdWriteCC := by
  intro i s t h
  cases exec_effect h with
  | comp m _ | tix m _ _ =>
    exact ⟨fun hn => absurd (hn m) (by simp), fun _ _ => compareCC_ne_unset _ _, by simp⟩
  | td m _ =>
    exact ⟨fun hn => absurd (hn m) (by simp), fun _ _ => readinessCC_ne_unset _, fun _ _ => readinessCC_ne_gt _⟩
  | _ => exact ⟨fun _ => rfl, by simp, by simp⟩

/-- Settles O34: what every instruction keeps. -/
theorem noInstructionChangesSwRestParamsOrMark : Obligations.NoInstructionChangesSwRestParamsOrMark := by
  intro i s t h
  cases exec_effect h with
  | comp m _ | tix m _ _ => exact ⟨rfl, rfl, rfl, fun _ => compareCC_ne_unset _ _⟩
  | td m _ => exact ⟨rfl, rfl, rfl, fun _ => readinessCC_ne_unset _⟩
  | _ => exact ⟨rfl, rfl, rfl, id⟩

/-! ## Which instruction reads which register -/

/-- An instruction that neither reads nor writes A has the same effect whatever A holds. -/
theorem Effect.setA {s t : State} {i : Instr} (h : Effect s i t) (v : Word)
    (hn : ∀ m, i ≠ .sta m ∧ i ≠ .add m ∧ i ≠ .sub m ∧ i ≠ .mul m ∧ i ≠ .div m ∧ i ≠ .and m ∧ i ≠ .or m ∧ i ≠ .comp m ∧
      i ≠ .stch m ∧ i ≠ .wd m ∧ i ≠ .lda m ∧ i ≠ .ldch m ∧ i ≠ .rd m) : Effect (s.setA v) i (t.setA v) := by
  cases h with
  | sta m _ | add m _ _ | sub m _ _ | mul m _ _ | div m _ _ _ | and m _ | or m _ | comp m _ | stch m _ | wd m _ _
  | lda m _ | ldch m _ | rd m _ _ => exact absurd (hn m) (by simp)
  | _ => constructor <;> assumption

/-- STCH and WD read the rightmost byte of A and nothing else of it. -/
theorem Effect.setA_of_rmb_eq {s t : State} {i : Instr} (h : Effect s i t) {v : Word} (hv : rmb v = rmb s.a)
    (hi : ∃ m, i = .stch m ∨ i = .wd m) : Effect (s.setA v) i (t.setA v) := by
  obtain ⟨m, rfl | rfl⟩ := hi
  · cases h with
    | stch m ha =>
      rw [← hv]
      exact .stch m ha
  · cases h with
    | wd m ha hr =>
      rw [← hv]
      exact .wd m ha hr

/-- Settles O35: the effect without A, at the state with A replaced. -/
theorem otherInstructionsDoNotReadA : Obligations.OtherInstructionsDoNotReadA :=
  fun _ _ _ v h =>
    ⟨fun hn => ((exec_effect h).setA v hn).exec_eq, fun hi hv => ((exec_effect h).setA_of_rmb_eq hv hi).exec_eq⟩

/-- The target address of direct mode does not depend on X. -/
theorem targetAddr_setX_of_direct {m : Operand} (h : m.mode = .direct) (s : State) (v : Word) :
    targetAddr m (s.setX v) = targetAddr m s := by
  rw [targetAddr, targetAddr, h]
  rfl

/-- An instruction of direct mode that neither reads nor writes X has the same effect whatever X holds. -/
theorem Effect.setX {s t : State} {i : Instr} (h : Effect s i t) (v : Word)
    (hd : ∀ m, i.operand? = some m → m.mode = .direct)
    (hn : ∀ m, i ≠ .stx m ∧ i ≠ .tix m ∧ i ≠ .ldx m) : Effect (s.setX v) i (t.setX v) := by
  -- TA is formed in direct mode, so X may be replaced in it
  have hta {m} (hm : i.operand? = some m) := targetAddr_setX_of_direct (hd m hm) s v
  cases h with
  | stx m _ | tix m _ _ | ldx m _ => exact absurd (hn m) (by simp)
  | rsub | jeqNot m _ _ | jgtNot m _ _ | jltNot m _ _ => constructor <;> assumption
  | _ =>
    rw [← hta rfl] at *
    constructor <;> assumption

/-- Settles O36: the effect without X, at the state with X replaced. -/
theorem directInstructionsDoNotReadX : Obligations.DirectInstructionsDoNotReadX :=
  fun _ _ _ v hd hn h => ((exec_effect h).setX v hd hn).exec_eq

/-- An instruction that neither reads nor writes L has the same effect whatever L holds. -/
theorem Effect.setL {s t : State} {i : Instr} (h : Effect s i t) (v : Word)
    (hn : ∀ m, i ≠ .stl m ∧ i ≠ .rsub ∧ i ≠ .ldl m ∧ i ≠ .jsub m) : Effect (s.setL v) i (t.setL v) := by
  cases h with
  | stl m _ | ldl m _ | jsub m _ => exact absurd (hn m) (by simp)
  | rsub => exact absurd (hn ⟨.direct, 0⟩) (by simp)
  | _ => constructor <;> assumption

/-- An instruction that neither reads nor writes CC has the same effect whatever CC is, unset included. -/
theorem Effect.setCC {s t : State} {i : Instr} (h : Effect s i t) (c : CC)
    (hn : ∀ m, i ≠ .jeq m ∧ i ≠ .jgt m ∧ i ≠ .jlt m ∧ i ≠ .stsw m ∧ i ≠ .comp m ∧ i ≠ .tix m ∧ i ≠ .td m) :
    Effect (s.setCC c) i (t.setCC c) := by
  cases h with
  | jeq m _ _ | jgt m _ _ | jlt m _ _ | jeqNot m _ _ | jgtNot m _ _ | jltNot m _ _ | stsw m _ | comp m _ | tix m _ _
  | td m _ => exact absurd (hn m) (by simp)
  | _ => constructor <;> assumption

/-- Settles O37: the effects without L and without CC, at the state with the one replaced. -/
theorem otherInstructionsDoNotReadLOrCC : Obligations.OtherInstructionsDoNotReadLOrCC :=
  fun _ _ _ h => ⟨fun v hn => ((exec_effect h).setL v hn).exec_eq, fun c hn => ((exec_effect h).setCC c hn).exec_eq⟩

/-! ## Launch -/

/-- A byte the image does not list is that of the memory it is loaded into. -/
theorem read_loadImage_of_unlisted {image : List Host.Cell} {n : Nat} (m : Memory) (h : ∀ c ∈ image, c.1 ≠ n) :
    Memory.read (loadImage m image) n = Memory.read m n := by
  induction image generalizing m with
  | nil => rfl
  | cons c t ih =>
    obtain ⟨hc, ht⟩ := List.forall_mem_cons.mp h
    exact (ih _ ht).trans (Memory.read_write_other m c.1 c.2 n hc.symm)

/-- Each byte of an image whose addresses are distinct stands at its address. -/
theorem read_loadImage_of_mem {m : Memory} {image : List Host.Cell} (hm : Memory.wf m = true)
    (hb : ∀ c ∈ image, c.1 ≤ lastAddress) (hp : image.Pairwise fun c e => c.1 ≠ e.1) :
    ∀ c ∈ image, Memory.read (loadImage m image) c.1 = c.2 := by
  induction image generalizing m with
  | nil => simp
  | cons c t ih =>
    obtain ⟨hbc, hbt⟩ := List.forall_mem_cons.mp hb
    obtain ⟨hpc, hpt⟩ := List.pairwise_cons.mp hp
    refine List.forall_mem_cons.mpr ⟨?_, ih (Memory.write_wf m _ _ hm hbc) hbt hpt⟩
    calc Memory.read (loadImage (Memory.write m c.1 c.2) t) c.1
      _ = Memory.read (Memory.write m c.1 c.2) c.1 := read_loadImage_of_unlisted _ fun e he => (hpc e he).symm
      _ = c.2 := Memory.read_write_same m _ _ hm

theorem Launch.admitted_iff {p : Launch} :
    p.admitted = true ↔ p.entry ≤ 32765 ∧ (∀ c ∈ p.image, c.1 ≤ lastAddress) ∧ Memory.wf p.initMem = true := by
  simp [Launch.admitted, and_assoc]

/-- Settles O52: the registers are the chosen values, and memory is the image over the chosen memory. -/
theorem launchStateIsAsTheSpecSays : Obligations.LaunchStateIsAsTheSpecSays := by
  intro p hp
  obtain ⟨he, hb, hm⟩ := Launch.admitted_iff.mp hp
  exact ⟨trunc24_toNat p.entry (by omega), rfl, rfl, rfl, rfl, rfl, rfl, rfl, rfl, rfl,
    fun c hc hd => read_loadImage_of_mem hm hb hd c hc, fun _ hn => read_loadImage_of_unlisted _ hn⟩

/-- Settles O53: reset is the launch of no program. -/
theorem resetIsALaunchState : Obligations.ResetIsALaunchState :=
  ⟨rfl, rfl, rfl, rfl, rfl, rfl, rfl⟩

/-! ## The step -/

/-- The converse of `step_next` before the instruction runs: what a step is when its word decodes. -/
theorem step_of_decode {s : State} {i : Instr} (hf : s.faultMark = none) (hr : s.pc ≠ s.params.ret)
    (ha : Admitted s.pc.toNat 3) (hi : decodeWord (s.wordAt s.pc.toNat) = .ok i) : step s = exec i s.advance := by
  have hfinal : ¬ s.Final := fun h => hr h.2
  have hfetch : s.fetchWord = some (s.wordAt s.pc.toNat) := if_pos ha
  simp [step, hf, hfinal, hfetch, hi]

theorem State.advance_eq (s : State) : s.advance = { s with pc := BitVec.ofNat 24 (s.pc.toNat + 3) } :=
  congrArg s.setPc (trunc24_natCast (s.pc.toNat + 3))

/-- Settles O42: no earlier branch of the step applies, and the advance is the PC update of R28. -/
theorem stepRunsTheDecodedInstruction : Obligations.StepRunsTheDecodedInstruction := by
  intro s i hf hr ha hi
  rw [← s.advance_eq]
  exact step_of_decode hf hr ha hi

theorem step_of_marked {s : State} {f : FaultMark} (h : s.faultMark = some f) : step s = s.raise f := by
  simp [step, h]

/-- Recording a mark that stands changes nothing. -/
theorem State.record_of_marked {s : State} {f : FaultMark} (h : s.faultMark = some f) : s.record f = s := by
  rw [State.record, ← h]

/-- Settles O44: the mark that stands is raised again, and a final state has none. -/
theorem markedStateTakesNoStep : Obligations.MarkedStateTakesNoStep := by
  intro s f h
  refine ⟨?_, fun hfinal => ?_⟩
  · rw [step_of_marked h, State.raise, State.record_of_marked h]
  · rw [hfinal.1] at h
    cases h

end Sys2Proof.Machine
end

section
/-! Proofs of the memory's obligations (20_memory.md).

A byte read after a write is one equation per write (`State.byteAt_setByte`, `State.byteAt_setWord`); what a store
answers is read off `State.storeWord` and `State.storeByte`; the step that follows it is `step_setMem`, for a store
changes nothing but memory. -/

namespace Sys2Proof.Machine

/-! ## The word of three bytes -/

theorem State.wordAt_of_big {s : State} (h : s.params.byteOrder = .big) (k : Nat) :
    s.wordAt k = (s.byteAt k ++ s.byteAt (k + 1) ++ s.byteAt (k + 2) : BitVec 24) :=
  congrArg (wordOfBytes · (s.byteAt k) (s.byteAt (k + 1)) (s.byteAt (k + 2))) h

theorem State.wordAt_of_little {s : State} (h : s.params.byteOrder = .little) (k : Nat) :
    s.wordAt k = (s.byteAt (k + 2) ++ s.byteAt (k + 1) ++ s.byteAt k : BitVec 24) :=
  congrArg (wordOfBytes · (s.byteAt k) (s.byteAt (k + 1)) (s.byteAt (k + 2))) h

/-- Settles O6: the word under each order. -/
theorem wordReadIsThreeBytesInOrder : Obligations.WordReadIsThreeBytesInOrder :=
  fun _ k => ⟨fun h => State.wordAt_of_big h k, fun h => State.wordAt_of_little h k⟩

/-! ## Bytes and words after a write -/

theorem State.byteAt_setByte {s : State} (hm : MemoryInv s) (k : Nat) (b : Byte) (n : Nat) :
    (s.setByte k b).byteAt n = if n = k then b else s.byteAt n := by
  split
  · next h => rw [h, s.byteAt_setByte_same k b hm]
  · next h => exact s.byteAt_setByte_other k b n h

/-- Every byte after a word store inside memory, in either order. -/
theorem State.byteAt_setWord {s : State} {k : Nat} (hm : MemoryInv s) (hk : Admitted k 3) (v : Word) (n : Nat) :
    (s.setWord k v).byteAt n =
      if n = k then firstByte s.params.byteOrder v
      else if n = k + 1 then middleByte v
      else if n = k + 2 then lastByte s.params.byteOrder v
      else s.byteAt n := by
  have hm1 : MemoryInv (s.setByte k (firstByte s.params.byteOrder v)) := s.setByte_wf k _ hm (by omega)
  have hm2 := State.setByte_wf _ (k + 1) (middleByte v) hm1 (by omega)
  rw [State.setWord, State.byteAt_setByte hm2, State.byteAt_setByte hm1, State.byteAt_setByte hm]
  grind

/-- A word read gives the word last written there. -/
theorem State.wordAt_setWord {s : State} {k : Nat} (hm : MemoryInv s) (hk : Admitted k 3) (v : Word) :
    (s.setWord k v).wordAt k = v := by
  simp [State.wordAt, State.byteAt_setWord hm hk, wordOfBytes_bytes]

/-- Settles O7: the bytes a word write and a byte write leave, from the two equations of a read after a write. -/
theorem wordWriteStoresItsThreeBytes : Obligations.WordWriteStoresItsThreeBytes := by
  intro s k v hm
  refine ⟨fun hk => ⟨fun ho => ?_, fun ho => ?_, State.wordAt_setWord hm hk v, s.byteAt_setWord_other k v⟩,
    fun _ b => ⟨s.byteAt_setByte_same k b hm, s.byteAt_setByte_other k b⟩⟩
  · simp [State.byteAt_setWord hm hk, ho, firstByte, middleByte, lastByte]
  · simp [State.byteAt_setWord hm hk, ho, firstByte, middleByte, lastByte]

/-- Settles O8: the read is put together from three bytes, of which the later byte write replaced at most one. -/
theorem wordReadSeesBytesAsLastWritten : Obligations.WordReadSeesBytesAsLastWritten := by
  intro s k v b hm hk ho
  have hm' : MemoryInv (s.setWord k v) := s.setWord_wf k v hm hk
  have hread n : ((s.setWord k v).setByte n b).wordAt k =
      ((if k = n then b else v.extractLsb' 16 8) ++ (if k + 1 = n then b else v.extractLsb' 8 8) ++
        (if k + 2 = n then b else v.extractLsb' 0 8) : BitVec 24) := by
    rw [State.wordAt_of_big (by exact ho)]
    simp [State.byteAt_setByte hm', State.byteAt_setWord hm hk, ho, firstByte, middleByte, lastByte]
  have hlow : (v.extractLsb' 8 8 ++ v.extractLsb' 0 8 : BitVec 16) = v.extractLsb' 0 16 :=
    BitVec.extractLsb'_append_extractLsb'_eq_extractLsb' rfl
  have hhigh : (v.extractLsb' 16 8 ++ v.extractLsb' 8 8 : BitVec 16) = v.extractLsb' 8 16 :=
    BitVec.extractLsb'_append_extractLsb'_eq_extractLsb' rfl
  refine ⟨?_, ?_, ?_, fun n h0 h1 h2 => ?_⟩
  · simpa [hread] using BitVec.append_assoc.trans (congrArg (b ++ ·) hlow)
  · simp [hread]
  · simpa [hread] using congrArg (· ++ b) hhigh
  · rw [hread, if_neg h0.symm, if_neg h1.symm, if_neg h2.symm]
    exact wordOfCode_bytes v

/-! ## What the stores write -/

/-- The four word stores of an operand, each with the word it stores (R84, R86, R87, R88). -/
theorem exec_wordStores (m : Operand) (s : State) :
    ∀ p ∈ [(Instr.sta m, s.a), (.stl m, s.l), (.stx m, s.x), (.stsw m, s.sw)],
      exec p.1 s = s.storeWord (targetAddr m s) p.2 := by
  simp only [List.forall_mem_cons, List.not_mem_nil, false_imp_iff, implies_true, and_true]
  exact ⟨rfl, rfl, rfl, rfl⟩

theorem exec_wordStore_next {m : Operand} {s t : State} {i : Instr}
    (hi : i ∈ [Instr.sta m, .stl m, .stx m, .stsw m]) (h : exec i s = .next t) :
    ∃ v, t = s.setWord (targetAddr m s) v := by
  obtain ⟨p, hp, rfl⟩ : ∃ p ∈ [(Instr.sta m, s.a), (.stl m, s.l), (.stx m, s.x), (.stsw m, s.sw)], p.1 = i := by
    simpa [eq_comm] using hi
  rw [exec_wordStores m s p hp] at h
  exact ⟨p.2, (State.storeWord_next h).2⟩

/-- Settles O9: a store's next state is a write of a word or a byte at TA, which changes memory alone. -/
theorem storesChangeOnlyTheStoredBytes : Obligations.StoresChangeOnlyTheStoredBytes := by
  rintro m s t ta rfl
  refine ⟨fun i hi h => ?_, fun h => ?_⟩
  · obtain ⟨v, rfl⟩ := exec_wordStore_next hi h
    exact ⟨rfl, s.byteAt_setWord_other _ v⟩
  · obtain ⟨-, rfl⟩ := execStch_next h
    exact ⟨rfl, s.byteAt_setByte_other _ _⟩

/-- Settles O10: no effect but those of the five stores touches memory. -/
theorem onlyStoresChangeMemory : Obligations.OnlyStoresChangeMemory := by
  intro i s t h hn
  cases exec_effect h with
  | sta m _ | stl m _ | stx m _ | stsw m _ | stch m _ => exact absurd (hn m) (by simp)
  | _ => exact ⟨rfl, fun _ => rfl⟩

/-! ## The fetch after a store -/

theorem State.advance_eq_add (s : State) : s.advance = { s with pc := s.pc + 3 } := by
  rw [State.advance_eq, BitVec.ofNat_add, BitVec.ofNat_toNat, BitVec.setWidth_eq]
  rfl

/-- The step after a change of memory alone runs the word that the new memory has at PC (R55). -/
theorem step_setMem {s : State} {mem : Memory} {i : Instr} (hf : s.faultMark = none) (hr : s.pc ≠ s.params.ret)
    (ha : Admitted s.pc.toNat 3) (hi : decodeWord (({ s with mem := mem } : State).wordAt s.pc.toNat) = .ok i) :
    step { s with mem := mem } = exec i { s with mem := mem, pc := s.pc + 3 } := by
  rw [step_of_decode (s := { s with mem := mem }) hf hr ha hi, State.advance_eq_add]

/-- `step_setMem` from the three bytes at PC, in the big order. -/
theorem step_setMem_of_big {s : State} {mem : Memory} {i : Instr} (hf : s.faultMark = none) (hr : s.pc ≠ s.params.ret)
    (ha : Admitted s.pc.toNat 3) (ho : s.params.byteOrder = .big)
    (hi : decodeWord (Memory.read mem s.pc.toNat ++ Memory.read mem (s.pc.toNat + 1) ++
      Memory.read mem (s.pc.toNat + 2) : BitVec 24) = .ok i) :
    step { s with mem := mem } = exec i { s with mem := mem, pc := s.pc + 3 } :=
  step_setMem hf hr ha ((congrArg decodeWord (State.wordAt_of_big (s := { s with mem := mem }) ho _)).trans hi)

/-- Settles O11: a store's next state is the old one with another memory, and the next step decodes what that memory
has at PC. -/
theorem nextFetchSeesTheStore : Obligations.NextFetchSeesTheStore := by
  rintro m s i ta pc hm hf hr rfl rfl hpc
  refine ⟨fun p hp => ⟨fun hta hi => ?_, fun ho t h => ?_⟩, fun ho t h => ?_⟩
  · have ha : Admitted (targetAddr m s) 3 := hta ▸ hpc
    refine ⟨s.setWord (targetAddr m s) p.2, (exec_wordStores m s p hp).trans (if_pos ha), ?_⟩
    have hword : (s.setWord (targetAddr m s) p.2).wordAt s.pc.toNat = p.2 := hta ▸ State.wordAt_setWord hm ha p.2
    exact step_setMem hf hr hpc ((congrArg decodeWord hword).trans hi)
  · rw [exec_wordStores m s p hp] at h
    obtain ⟨ha, rfl⟩ := State.storeWord_next h
    refine ⟨fun n _ => ?_, step_setMem_of_big hf hr hpc ho⟩
    rw [State.byteAt_setWord hm ha, ho]
    rfl
  · obtain ⟨-, rfl⟩ := execStch_next h
    exact ⟨fun n _ => State.byteAt_setByte hm _ _ n, step_setMem_of_big hf hr hpc ho⟩

/-! ## The faults of the fetch -/

theorem step_of_fetch_beyond {s : State} (hf : s.faultMark = none) (hr : s.pc ≠ s.params.ret)
    (ha : ¬ Admitted s.pc.toNat 3) : step s = s.raise (.addressFault .fetch s.pc s.pc.toNat) := by
  have hfinal : ¬ s.Final := fun h => hr h.2
  have hfetch : s.fetchWord = none := if_neg ha
  simp [step, hf, hfinal, hfetch]

theorem step_of_decode_error {s : State} {e : DecodeError} (hf : s.faultMark = none) (hr : s.pc ≠ s.params.ret)
    (ha : Admitted s.pc.toNat 3) (he : decodeWord (s.wordAt s.pc.toNat) = .error e) :
    step s = s.advance.raise (illegal s.pc (s.wordAt s.pc.toNat)) := by
  have hfinal : ¬ s.Final := fun h => hr h.2
  have hfetch : s.fetchWord = some (s.wordAt s.pc.toNat) := if_pos ha
  simp [step, hf, hfinal, hfetch, he]

/-- An opcode byte decodes to an instruction of that opcode only. -/
theorem opcode_of_decodeOpcode {op : Byte} {m : Operand} {i : Instr} (h : decodeOpcode op m = .ok i) :
    i.opcode = op := by
  unfold decodeOpcode at h
  split at h <;> cases h
  all_goals next hop => exact BitVec.eq_of_toNat_eq hop.symm

/-- Settles O43: the fetch is checked before the word is decoded, and a word whose opcode is no instruction's does not
decode. -/
theorem stepFaultsOnAFetchBeyondMemoryOrAnUnassignedOpcode :
    Obligations.StepFaultsOnAFetchBeyondMemoryOrAnUnassignedOpcode := by
  intro s hf hr
  refine ⟨fun hb => step_of_fetch_beyond hf hr (Nat.not_le.mpr hb), fun ha hop => ?_⟩
  cases hd : decodeWord (s.wordAt s.pc.toNat) with
  | ok i => exact absurd (opcode_of_decodeOpcode hd) (hop i)
  | error e =>
    rw [← s.advance_eq]
    exact step_of_decode_error hf hr ha hd

end Sys2Proof.Machine
end

section
/-! Proofs of the encoding's obligations (30_encoding.md R61 to R73).

A word is an opcode byte and an operand field. The opcode map is said once in each direction (`decodeOpcode_opcode`;
`opcode_of_decodeOpcode` and `operand?_of_decodeOpcode`), and so is its domain (`decodeOpcode_assigned_or_error`); the
operand field that is decoded, put back after the opcode byte, makes the word again (`encode_of_fields`). -/

namespace Sys2Proof

open Machine

/-! ## The opcode map -/

/-- RSUB is the one instruction with no operand (R72). -/
theorem Instr.operand?_eq_none_iff {i : Instr} : i.operand? = none ↔ i = .rsub := by
  cases i <;> simp [Instr.operand?]

theorem Instr.wf_of_operand? {i : Instr} {m : Operand} (h : i.operand? = some m) : i.wf = m.wf := by
  rw [Instr.wf, h]

theorem decodeOpcode_opcode {i : Instr} {m : Operand} (h : i.operand? = some m) :
    decodeOpcode i.opcode m = .ok i := by
  cases i with
  | rsub => cases h
  | _ =>
    cases h
    rfl

theorem operand?_of_decodeOpcode {op : Byte} {m : Operand} {i : Instr} (h : decodeOpcode op m = .ok i)
    (hr : i ≠ .rsub) : i.operand? = some m := by
  obtain rfl := opcode_of_decodeOpcode h
  cases i with
  | rsub => exact absurd rfl hr
  | _ =>
    cases h
    rfl

/-- The opcode bytes of R67's table. -/
def assignedOpcodes : List Nat :=
  [0x00, 0x04, 0x08, 0x0C, 0x10, 0x14, 0x18, 0x1C, 0x20, 0x24, 0x28, 0x2C, 0x30, 0x34, 0x38, 0x3C, 0x40, 0x44, 0x48,
    0x4C, 0x50, 0x54, 0xD8, 0xDC, 0xE0, 0xE8]

/-- R70: the two low bits are clear. -/
theorem assignedOpcodes_mod_four : ∀ k ∈ assignedOpcodes, k % 4 = 0 := by decide

theorem decodeOpcode_assigned_or_error (op : Byte) (m : Operand) :
    (op.toNat ∈ assignedOpcodes ∧ ∃ i, decodeOpcode op m = .ok i) ∨
    (op.toNat ∉ assignedOpcodes ∧ decodeOpcode op m = .error (.unassigned op)) := by
  unfold decodeOpcode
  split
  case h_27 => exact .inr ⟨by simp_all [assignedOpcodes], rfl⟩
  all_goals next h => exact .inl ⟨by rw [h]; decide, _, rfl⟩

/-- Settles O50: the opcode map has its 26 bytes and no other. -/
theorem exactlyTheAssignedOpcodesDecode : Obligations.ExactlyTheAssignedOpcodesDecode := by
  intro w
  obtain ⟨hmem, i, hi⟩ | ⟨hmem, he⟩ := decodeOpcode_assigned_or_error (opcodeField w) (operandField w)
  · have hop : i.opcode = opcodeField w := opcode_of_decodeOpcode hi
    exact ⟨fun _ => ⟨i, hi, hop, hop ▸ assignedOpcodes_mod_four _ hmem⟩, fun hn => absurd hmem hn⟩
  · exact ⟨fun h => absurd h hmem, fun _ => he⟩

/-! ## Decoding what was encoded -/

theorem decodeWord_encode {i : Instr} (h : i.wf = true) : decodeWord (encode i) = .ok i := by
  cases hm : i.operand? with
  | none =>
    obtain rfl := Instr.operand?_eq_none_iff.mp hm
    exact Laws.EncodesBack.rsub h
  | some m =>
    rw [Laws.EncodesBack.of_fields i m hm (Instr.wf_of_operand? hm ▸ h), decodeOpcode_opcode hm]

/-- Three bytes whose word decodes are decoded off the front of a stream (R73). -/
theorem decodeBytes_of_decodeWord {b0 b1 b2 : Byte} {i : Instr} (h : decodeWord (wordOfCode b0 b1 b2) = .ok i)
    (rest : List Byte) : decodeBytes (b0 :: b1 :: b2 :: rest) = .ok (i, rest) := by
  simp [decodeBytes, h]

theorem decodeBytes_encodeBytes_append {i : Instr} (h : i.wf = true) (rest : List Byte) :
    decodeBytes (encodeBytes i ++ rest) = .ok (i, rest) :=
  decodeBytes_of_decodeWord ((congrArg decodeWord (wordOfCode_bytes (encode i))).trans (decodeWord_encode h)) rest

/-- Settles O48: the fields of an encoded word are its instruction's, and its three bytes make the word again. -/
theorem decodeOfEncodeIsTheInstruction : Obligations.DecodeOfEncodeIsTheInstruction :=
  fun _ rest h => ⟨decodeWord_encode h, decodeBytes_encodeBytes_append h rest⟩

/-! ## Encoding what was decoded -/

theorem modeField_bit (w : Word) : (modeField w).bit = w.extractLsb' 15 1 := by
  apply BitVec.eq_of_getLsbD_eq
  intro k hk
  obtain rfl : k = 0 := by omega
  cases h : w[15] <;> simp [modeField, AddrMode.bit, h]

theorem addressField_le (w : Word) : addressField w ≤ 32767 := Nat.le_of_lt_succ (w.extractLsb' 0 15).isLt

theorem operandField_wf (w : Word) : (operandField w).wf = true := decide_eq_true (addressField_le w)

theorem encode_of_fields {w : Word} {i : Instr} (hop : i.opcode = opcodeField w)
    (hm : i.operand? = some (operandField w)) : encode i = w := by
  have haddr : BitVec.ofNat 15 (addressField w) = w.extractLsb' 0 15 := by
    rw [addressField, BitVec.ofNat_toNat, BitVec.setWidth_eq]
  have hbits : i.operandBits = w.extractLsb' 0 16 :=
    calc i.operandBits
      _ = (modeField w).bit ++ BitVec.ofNat 15 (addressField w) := by rw [Instr.operandBits, hm, operandField]
      _ = w.extractLsb' 15 1 ++ w.extractLsb' 0 15 := by rw [modeField_bit, haddr]
      _ = w.extractLsb' 0 16 := BitVec.extractLsb'_append_extractLsb'_eq_extractLsb' rfl
  calc encode i
    _ = w.extractLsb' 16 8 ++ w.extractLsb' 0 16 := by rw [encode, hop, hbits, opcodeField]
    _ = w.extractLsb' 0 24 := BitVec.extractLsb'_append_extractLsb'_eq_extractLsb' rfl
    _ = w := BitVec.extractLsb'_eq_self

/-- Settles O49: the opcode is that of the word, and every instruction but RSUB keeps the operand field whole. -/
theorem encodeOfDecodeIsTheWord : Obligations.EncodeOfDecodeIsTheWord := by
  intro w i h
  have hop : i.opcode = opcodeField w := opcode_of_decodeOpcode h
  by_cases hr : i = .rsub
  · subst hr
    exact ⟨rfl, fun hn => absurd rfl hn, fun _ => hop.symm⟩
  · have hm := operand?_of_decodeOpcode h hr
    exact ⟨(Instr.wf_of_operand? hm).trans (operandField_wf w), fun _ => encode_of_fields hop hm,
      fun he => absurd he hr⟩

/-! ## Words of the spec, and the target address -/

/-- Settles O47: each word is decoded by evaluation. -/
theorem specWordsDecodeToTheirInstructions : Obligations.SpecWordsDecodeToTheirInstructions :=
  ⟨rfl, rfl, rfl, rfl, rfl, rfl, rfl, rfl, rfl⟩

/-- Settles O51: the sum is by definition, and R65's example is its value at X = 7777. -/
theorem targetAddressIsThePlainSum : Obligations.TargetAddressIsThePlainSum :=
  ⟨fun _ _ => ⟨rfl, rfl⟩, fun _ hx => congrArg (fun x : Word => 0x6452 + x.toNat) hx⟩

/-! ## The bytes of an encoded word -/

theorem operandBits_toNat {i : Instr} {d : AddrMode} {n : Nat} (hm : i.operand? = some ⟨d, n⟩) (hn : n ≤ 32767) :
    i.operandBits.toNat = d.bit.toNat * 2 ^ 15 + n := by
  have hfit : (BitVec.ofNat 15 n).toNat = n := Nat.mod_eq_of_lt (Nat.lt_succ_of_le hn)
  calc i.operandBits.toNat
    _ = (d.bit ++ BitVec.ofNat 15 n).toNat := by rw [Instr.operandBits, hm]
    _ = d.bit.toNat <<< 15 ||| (BitVec.ofNat 15 n).toNat := BitVec.toNat_append _ _
    _ = d.bit.toNat <<< 15 + (BitVec.ofNat 15 n).toNat := (Nat.shiftLeft_add_eq_or_of_lt (BitVec.isLt _) _).symm
    _ = d.bit.toNat * 2 ^ 15 + n := by rw [hfit, Nat.shiftLeft_eq]

/-- A byte below the opcode is one of the operand bits' number. -/
theorem extractLsb'_encode_eq_ofNat {i : Instr} {k v : Nat} (hk : k + 8 ≤ 16)
    (hv : i.operandBits.toNat / 2 ^ k % 2 ^ 8 = v % 2 ^ 8) : (encode i).extractLsb' k 8 = BitVec.ofNat 8 v := by
  have hlow : (encode i).extractLsb' k 8 = i.operandBits.extractLsb' k 8 :=
    BitVec.extractLsb'_append_eq_of_add_le hk
  apply BitVec.eq_of_toNat_eq
  rw [hlow, BitVec.extractLsb'_toNat, Nat.shiftRight_eq_div_pow, BitVec.toNat_ofNat, hv]

/-- The bytes of an instruction in numbers: opcode, high byte of the address with the x bit above it, low byte. -/
theorem encodeBytes_of_operand? {i : Instr} {d : AddrMode} {n : Nat} (hm : i.operand? = some ⟨d, n⟩)
    (hn : n ≤ 32767) :
    encodeBytes i =
      [i.opcode, BitVec.ofNat 8 ((if d = .indexed then 128 else 0) + n / 256), BitVec.ofNat 8 (n % 256)] := by
  have htop : (encode i).extractLsb' 16 8 = i.opcode := opcodeField_encode i
  have hmiddle : (encode i).extractLsb' 8 8 = BitVec.ofNat 8 ((if d = .indexed then 128 else 0) + n / 256) := by
    refine extractLsb'_encode_eq_ofNat (by decide) ?_
    rw [operandBits_toNat hm hn]
    cases d
    · simp [AddrMode.bit]
    · simp [AddrMode.bit]
      omega
  have hlast : (encode i).extractLsb' 0 8 = BitVec.ofNat 8 (n % 256) := by
    refine extractLsb'_encode_eq_ofNat (by decide) ?_
    rw [operandBits_toNat hm hn]
    omega
  rw [encodeBytes, htop, hmiddle, hlast]

end Sys2Proof
end

section
/-! Proofs of the assembler's obligations (30_encoding.md R74 to R79).

What a statement generates is the encoding of its instruction (`Stmt.bytes_instr`, `encodeBytes_of_operand?`), where a
line is placed is one equation per kind of line, and what an assembled program keeps is read off `assemble_ok` and
`imageOf_ok`. -/

namespace Sys2Proof.Machine

/-! ## Mnemonics -/

/-- The opcode byte of each mnemonic that takes an operand (R67). -/
def mnemonicOpcodes : List (String × Nat) :=
  [("LDA", 0x00), ("LDCH", 0x50), ("LDL", 0x08), ("LDX", 0x04), ("STA", 0x0C), ("STCH", 0x54), ("STL", 0x14),
    ("STSW", 0xE8), ("STX", 0x10), ("ADD", 0x18), ("SUB", 0x1C), ("MUL", 0x20), ("DIV", 0x24), ("AND", 0x40),
    ("OR", 0x44), ("COMP", 0x28), ("TIX", 0x2C), ("J", 0x3C), ("JEQ", 0x30), ("JGT", 0x34), ("JLT", 0x38),
    ("JSUB", 0x48), ("TD", 0xE0), ("RD", 0xD8), ("WD", 0xDC)]

theorem instrOf_map_opcode_operand? (mn : String) (m : Operand) :
    (instrOf mn m).map (fun i => (i.opcode.toNat, i.operand?)) =
      (mnemonicOpcodes.lookup mn).map fun c => (c, some m) := by
  unfold instrOf
  split
  case h_26 =>
    have hnone : mnemonicOpcodes.lookup mn = none := List.lookup_eq_none_iff.mpr (by simp_all [mnemonicOpcodes])
    rw [hnone]
    rfl
  all_goals rfl

theorem operand?_of_instrOf {mn : String} {m : Operand} {i : Instr} (h : instrOf mn m = some i) :
    i.operand? = some m := by
  have hmap := instrOf_map_opcode_operand? mn m
  rw [h] at hmap
  obtain ⟨_, -, hc⟩ := Option.map_eq_some_iff.mp hmap.symm
  exact (congrArg Prod.snd hc).symm

/-! ## What a statement generates -/

theorem Stmt.bytes_instr {syms : List (String × Nat)} {mn y : String} {d : AddrMode} {n : Nat} {i : Instr}
    (o : ByteOrder) (hy : addressOf syms y = .ok n) (hn : n ≤ lastAddress) (hi : instrOf mn ⟨d, n⟩ = some i) :
    Stmt.bytes o syms (.instr mn y d) = .ok (wordBytes o (encode i)) := by
  simp [Stmt.bytes, hy, hn, hi]

/-- The big order is that of the encoded bytes (R62). -/
theorem wordBytes_big_encode (i : Instr) : wordBytes .big (encode i) = encodeBytes i := rfl

/-! ## Where a line is placed -/

theorem placeFrom_of_finish {ln : SourceLine} {y : Option String} (h : ln.stmt = .ok (.finish y)) (k : Nat)
    (rest : List SourceLine) : placeFrom k (ln :: rest) = .ok [⟨none, k, .finish y⟩] := by
  simp [placeFrom, h]

theorem placeFrom_of_start {ln : SourceLine} {v : Option Nat} {k : Nat} {rest : List SourceLine} {ps : List Placed}
    (h : ln.stmt = .ok (.start v)) (hrest : placeFrom (v.getD k) rest = .ok ps) :
    placeFrom k (ln :: rest) = .ok (⟨none, v.getD k, .start v⟩ :: ps) := by
  simp [placeFrom, h, hrest]

/-- A line that is neither START nor END stands at the address and moves it by its size. -/
theorem placeFrom_of_sized {ln : SourceLine} {st : Stmt} {k : Nat} {rest : List SourceLine} {ps : List Placed}
    (h : ln.stmt = .ok st) (hs : ∀ v, st ≠ .start v) (hf : ∀ y, st ≠ .finish y)
    (hrest : placeFrom (k + st.size) rest = .ok ps) :
    placeFrom k (ln :: rest) = .ok (⟨ln.label, k, st⟩ :: ps) := by
  cases st with
  | start v => exact absurd rfl (hs v)
  | finish y => exact absurd rfl (hf y)
  | _ => simp [placeFrom, h, hrest]

/-- Settles O59: directives by evaluation, an instruction by its encoding, and the lines by their kinds. -/
theorem statementsGenerateTheirBytes : Obligations.StatementsGenerateTheirBytes := by
  intro o syms
  refine ⟨?word, fun _ => ⟨rfl, rfl⟩, fun _ => ⟨rfl, rfl, rfl, rfl⟩, fun _ _ => ⟨rfl, rfl⟩, ⟨rfl, rfl⟩, ?instr,
    instrOf_map_opcode_operand?, ?placing⟩
  case word =>
    rintro z v rfl
    exact ⟨rfl, rfl, rfl⟩
  case instr =>
    intro mn y d n i hy hn hi
    have hm : i.operand? = some ⟨d, n⟩ := operand?_of_instrOf hi
    have hwf : i.wf = true := (Instr.wf_of_operand? hm).trans (decide_eq_true hn)
    rw [Stmt.bytes_instr .big hy hn hi, wordBytes_big_encode, ← encodeBytes_of_operand? hm hn]
    exact ⟨rfl, rfl, decodeBytes_encodeBytes_append hwf []⟩
  case placing =>
    intro k ln rest st ps h
    refine ⟨?_, ?_, placeFrom_of_sized h⟩
    · rintro y rfl
      exact placeFrom_of_finish h k rest
    · rintro a rfl
      exact placeFrom_of_start h

/-! ## Assembled programs -/

/-- Settles O60: the assembler checked every line and the entry before it answered. -/
theorem assembledProgramsCanBeLaunched : Obligations.AssembledProgramsCanBeLaunched := by
  intro o origin lines g h
  obtain ⟨ps, hps, himage, -, hentry⟩ := assemble_ok h
  obtain ⟨hlines, hcells⟩ := imageOf_ok himage
  refine ⟨fun p he hi hm => Launch.admitted_iff.mpr ⟨he ▸ hentry, hi ▸ hcells, hm⟩, fun qs hqs q hq => ?_⟩
  obtain rfl : ps = qs := Except.ok.inj (hps.symm.trans hqs)
  exact Placed.loadable_spec (hlines q hq)

end Sys2Proof.Machine
end

section
/-! Proofs of the load and store obligations (40_load_store.md).

An admitted access has its `Effect`, whose state is the rule's; an access beyond memory raises the address fault of the
shared operation that the instruction is written with (R45). -/

namespace Sys2Proof.Machine

/-! ## Accesses beyond memory -/

theorem State.storeWord_beyond {s : State} {ta : Nat} (v : Word) (h : ¬ Admitted ta 3) :
    s.storeWord ta v = s.raise (.addressFault .write s.instrAddr ta) := if_neg h

theorem State.storeByte_beyond {s : State} {ta : Nat} (b : Byte) (h : ¬ Admitted ta 1) :
    s.storeByte ta b = s.raise (.addressFault .write s.instrAddr ta) := if_neg h

theorem exec_wordLoad_beyond {m : Operand} {s : State} (h : ¬ Admitted (targetAddr m s) 3) :
    ∀ i ∈ [Instr.lda m, .ldl m, .ldx m], exec i s = s.raise (.addressFault .read s.instrAddr (targetAddr m s)) := by
  simp only [List.forall_mem_cons, List.not_mem_nil, false_imp_iff, implies_true, and_true]
  exact ⟨s.readWordThen_beyond _ (.next <| s.setA ·) h, s.readWordThen_beyond _ (.next <| s.setL ·) h,
    s.readWordThen_beyond _ (.next <| s.setX ·) h⟩

theorem exec_wordStore_beyond {m : Operand} {s : State} (h : ¬ Admitted (targetAddr m s) 3) :
    ∀ i ∈ [Instr.sta m, .stl m, .stx m], exec i s = s.raise (.addressFault .write s.instrAddr (targetAddr m s)) := by
  simp only [List.forall_mem_cons, List.not_mem_nil, false_imp_iff, implies_true, and_true]
  exact ⟨State.storeWord_beyond s.a h, State.storeWord_beyond s.l h, State.storeWord_beyond s.x h⟩

/-! ## Loads -/

/-- Settles O1: the effect of each word load, and the read fault they share. -/
theorem wordLoadsReplaceTheirRegister : Obligations.WordLoadsReplaceTheirRegister :=
  fun m _ => ⟨⟨rfl, rfl, rfl⟩,
    fun ha => ⟨(Effect.lda m ha).exec_eq, (Effect.ldl m ha).exec_eq, (Effect.ldx m ha).exec_eq⟩,
    fun hb => exec_wordLoad_beyond (Nat.not_le.mpr hb)⟩

/-- Settles O2: the effect of LDCH, which replaces bits 7..0 alone, and the fault of its byte read. -/
theorem ldchLoadsOnlyTheRightmostByte : Obligations.LdchLoadsOnlyTheRightmostByte :=
  fun m s => ⟨rfl, fun ha => (Effect.ldch m ha).exec_eq,
    fun hb => s.readByteThen_beyond _ (fun b => .next (s.setRmb b)) (Nat.not_le.mpr hb)⟩

/-! ## Stores -/

/-- Settles O3: the effect of each register's word store, and the write fault they share. -/
theorem wordStoresWriteTheirRegister : Obligations.WordStoresWriteTheirRegister :=
  fun m _ => ⟨⟨rfl, rfl, rfl⟩,
    fun ha => ⟨(Effect.sta m ha).exec_eq, (Effect.stl m ha).exec_eq, (Effect.stx m ha).exec_eq⟩,
    fun hb => exec_wordStore_beyond (Nat.not_le.mpr hb)⟩

/-- Settles O4: the effect of STSW asks nothing of CC, and neither does its fault. -/
theorem stswStoresTheStatusWord : Obligations.StswStoresTheStatusWord :=
  fun m _ => ⟨rfl, fun ha => (Effect.stsw m ha).exec_eq,
    fun hb => State.storeWord_beyond _ (Nat.not_le.mpr hb)⟩

/-- Settles O5: the effect of STCH, which writes one byte, and the fault of its byte write. -/
theorem stchStoresOneByte : Obligations.StchStoresOneByte :=
  fun m _ => ⟨rfl, fun ha => (Effect.stch m ha).exec_eq,
    fun hb => State.storeByte_beyond _ (Nat.not_le.mpr hb)⟩

end Sys2Proof.Machine
end

section
/-! Proofs of the arithmetic obligations (41_arithmetic.md).

An admitted ADD, SUB, MUL or DIV by a number that is not 0 is the narrowing of its exact result into A; what remains is
when that result fits (R94) and what its narrowing reads as. -/

namespace Sys2Proof.Machine

/-! ## Narrowing -/

theorem State.narrowThen_overflow {s : State} {z : Int} (rest : Word → Result)
    (ho : s.params.arithOverflow = .fault) (hz : ¬ Fits z) :
    s.narrowThen z rest = s.raise (.arithmeticOverflow s.instrAddr) := if_pos ⟨ho, hz⟩

theorem signed_fits (v : Word) : Fits (signed v) := ⟨v.le_toInt, Int.le_sub_one_of_lt v.toInt_lt⟩

theorem signed_trunc24 {z : Int} (h : Fits z) : signed (trunc24 z) = z :=
  BitVec.toInt_ofInt_eq_self (by decide) h.1 (Int.lt_add_one_of_le h.2)

/-! ## Narrowing and the unsigned readings -/

theorem trunc24_signed (v : Word) : trunc24 (signed v) = v := BitVec.ofInt_toInt

theorem trunc24_signed_add (v w : Word) : trunc24 (signed v + signed w) = BitVec.ofNat 24 (v.toNat + w.toNat) :=
  calc trunc24 (signed v + signed w)
    _ = trunc24 (signed v) + trunc24 (signed w) := BitVec.ofInt_add _ _
    _ = v + w := by rw [trunc24_signed, trunc24_signed]
    _ = BitVec.ofNat 24 (v.toNat + w.toNat) := BitVec.add_def v w

theorem trunc24_signed_sub (v w : Word) :
    trunc24 (signed v - signed w) = BitVec.ofNat 24 (v.toNat + (16777216 - w.toNat)) :=
  calc trunc24 (signed v - signed w)
    _ = trunc24 (signed v) + trunc24 (-signed w) := BitVec.ofInt_add _ _
    _ = trunc24 (signed v) + -trunc24 (signed w) := congrArg _ BitVec.ofInt_neg
    _ = v + -w := by rw [trunc24_signed, trunc24_signed]
    _ = v - w := (BitVec.sub_eq_add_neg v w).symm
    _ = BitVec.ofNat 24 (v.toNat + (16777216 - w.toNat)) := by rw [BitVec.sub_def, Nat.add_comm]

theorem trunc24_signed_mul (v w : Word) : trunc24 (signed v * signed w) = BitVec.ofNat 24 (v.toNat * w.toNat) :=
  calc trunc24 (signed v * signed w)
    _ = trunc24 (signed v) * trunc24 (signed w) := BitVec.ofInt_mul _ _
    _ = v * w := by rw [trunc24_signed, trunc24_signed]
    _ = BitVec.ofNat 24 (v.toNat * w.toNat) := by simp [BitVec.ofNat_mul]

/-! ## ADD, SUB and MUL -/

/-- The exact results of R90, R91 and R92, each narrowed into A. -/
theorem exec_addSubMul_of_admitted {m : Operand} {s : State} (h : Admitted (targetAddr m s) 3) :
    ∀ p ∈ [(Instr.add m, signed s.a + signed (s.wordAt (targetAddr m s))),
        (.sub m, signed s.a - signed (s.wordAt (targetAddr m s))),
        (.mul m, signed s.a * signed (s.wordAt (targetAddr m s)))],
      exec p.1 s = s.narrowThen p.2 (.next <| s.setA ·) := by
  simp only [List.forall_mem_cons, List.not_mem_nil, false_imp_iff, implies_true, and_true]
  exact ⟨if_pos h, if_pos h, if_pos h⟩

theorem exec_addSubMul_beyond {m : Operand} {s : State} (h : ¬ Admitted (targetAddr m s) 3) :
    ∀ i ∈ [Instr.add m, .sub m, .mul m], exec i s = s.raise (.addressFault .read s.instrAddr (targetAddr m s)) := by
  simp only [List.forall_mem_cons, List.not_mem_nil, false_imp_iff, implies_true, and_true]
  exact ⟨if_neg h, if_neg h, if_neg h⟩

/-- Settles O12: each narrows its exact result, which overflows when it does not fit. -/
theorem addSubMulNarrowTheExactResult : Obligations.AddSubMulNarrowTheExactResult := by
  rintro m s w rfl
  refine ⟨⟨rfl, rfl, rfl⟩, fun ha p hp => ?_, fun hb => exec_addSubMul_beyond (Nat.not_le.mpr hb)⟩
  have hnarrow := exec_addSubMul_of_admitted ha p hp
  exact ⟨fun hf => hnarrow.trans (State.narrowThen_of _ hf),
    fun ⟨ho, hz⟩ => hnarrow.trans (State.narrowThen_overflow _ ho (by omega))⟩

/-- Settles O15: the effects under wrap, with A read through the unsigned readings. -/
theorem wrappedArithmeticIsModulo24Bits : Obligations.WrappedArithmeticIsModulo24Bits := by
  rintro m s w rfl hw ha
  rw [← trunc24_signed_add, ← trunc24_signed_sub, ← trunc24_signed_mul]
  exact ⟨(Effect.add m ha (.inl hw)).exec_eq, (Effect.sub m ha (.inl hw)).exec_eq, (Effect.mul m ha (.inl hw)).exec_eq⟩

/-! ## The quotient -/

/-- Under `other` the quotient is one of the exact quotient's neighbours, whatever `Config.divRoundsUp` answers. -/
theorem quotient_other (n d : Int) :
    quotient .other n d = Int.fdiv n d ∨ (¬ d ∣ n ∧ quotient .other n d = Int.fdiv n d + 1) := by
  by_cases h : Int.fmod n d ≠ 0 ∧ Config.divRoundsUp n d = true
  · exact .inr ⟨mt Int.fmod_eq_zero_of_dvd h.1, if_pos h⟩
  · exact .inl (if_neg h)

theorem neg_natAbs_le_quotient (r : DivRound) (n d : Int) : -(n.natAbs : Int) ≤ quotient r n d := by
  have htrunc := Int.natAbs_tdiv_le_natAbs n d
  have hfloor := Int.natAbs_fdiv_le_natAbs n d
  cases r with
  | trunc =>
    show _ ≤ Int.tdiv n d
    omega
  | floor =>
    show _ ≤ Int.fdiv n d
    omega
  | other =>
    have hnext := quotient_other n d
    omega

/-- A quotient of words never falls below the range, so it fits as soon as it does not exceed it. -/
theorem quotient_signed_fits_iff (r : DivRound) (v : Word) (d : Int) :
    Fits (quotient r (signed v) d) ↔ quotient r (signed v) d ≤ 8388607 := by
  have hlow := neg_natAbs_le_quotient r (signed v) d
  have hv := signed_fits v
  omega

/-! ## DIV -/

theorem exec_div_of_ne_zero {m : Operand} {s : State} (ha : Admitted (targetAddr m s) 3)
    (hz : signed (s.wordAt (targetAddr m s)) ≠ 0) :
    exec (.div m) s =
      s.narrowThen (quotient s.params.divRound (signed s.a) (signed (s.wordAt (targetAddr m s)))) (.next <| s.setA ·) := by
  rw [exec, execDiv, s.readWordThen_of _ _ ha, if_neg hz]

theorem exec_div_of_zero {m : Operand} {s : State} (ha : Admitted (targetAddr m s) 3)
    (hz : signed (s.wordAt (targetAddr m s)) = 0) : exec (.div m) s = s.raise (.divideByZero s.instrAddr) := by
  rw [exec, execDiv, s.readWordThen_of _ _ ha, if_pos hz]

theorem exec_div_beyond {m : Operand} {s : State} (h : ¬ Admitted (targetAddr m s) 3) :
    exec (.div m) s = s.raise (.addressFault .read s.instrAddr (targetAddr m s)) := if_neg h

/-- Settles O13: q is the model's quotient, which can overflow only upward. -/
theorem divIsTheSignedRoundedQuotient : Obligations.DivIsTheSignedRoundedQuotient := by
  rintro m s w rfl
  refine ⟨rfl, fun ha hz => ⟨quotient s.params.divRound (signed s.a) (signed (s.wordAt (targetAddr m s))),
    fun h => by rw [h]; rfl, fun h => by rw [h]; rfl, fun h => by rw [h]; exact quotient_other _ _, fun hf => ?_,
    fun ⟨ho, hq⟩ => ?_⟩, exec_div_of_zero, fun hb => exec_div_beyond (Nat.not_le.mpr hb)⟩
  · have hfit := hf.imp_right (quotient_signed_fits_iff _ _ _).mpr
    exact (exec_div_of_ne_zero ha hz).trans (State.narrowThen_of _ hfit)
  · have hover := mt (quotient_signed_fits_iff _ _ _).mp (Int.not_le.mpr hq)
    exact (exec_div_of_ne_zero ha hz).trans (State.narrowThen_overflow _ ho hover)

/-! ## The division law -/

theorem natAbs_tmod_lt (n : Int) {d : Int} (hd : d ≠ 0) : (n.tmod d).natAbs < d.natAbs := by
  rw [Int.natAbs_tmod]
  exact Nat.mod_lt _ (Int.natAbs_pos.mpr hd)

theorem tmod_eq_zero_or_same_sign (n d : Int) :
    n.tmod d = 0 ∨ (0 < n.tmod d ∧ 0 < n) ∨ (n.tmod d < 0 ∧ n < 0) := by
  by_cases h : d ∣ n
  · exact .inl (Int.tmod_eq_zero_of_dvd h)
  · have hsign : (n.tmod d).sign = n.sign := (n.sign_tmod d).trans (if_neg h)
    rcases n.lt_trichotomy 0 with hn | rfl | hn
    · exact .inr (.inr ⟨Int.sign_eq_neg_one_iff_neg.mp (hsign.trans (Int.sign_eq_neg_one_of_neg hn)), hn⟩)
    · exact absurd (Int.dvd_zero d) h
    · exact .inr (.inl ⟨Int.sign_eq_one_iff_pos.mp (hsign.trans (Int.sign_eq_one_of_pos hn)), hn⟩)

/-- 800000 by FFFFFF is the one overflow of R93. -/
theorem tdiv_fits {n d : Int} (hn : Fits n) (hd : d ≠ 0) (h : ¬ (n = -8388608 ∧ d = -1)) : Fits (Int.tdiv n d) := by
  have hle := Int.natAbs_tdiv_le_natAbs n d
  have hlaw := Int.mul_tdiv_add_tmod n d
  have hrem := natAbs_tmod_lt n hd
  refine ⟨by omega, Int.not_lt.mp fun hq => ?_⟩
  obtain rfl : n = -8388608 := by omega
  rw [show Int.tdiv (-8388608) d = 8388608 by omega] at hlaw
  omega

/-- Settles O14: outside the excepted case the truncated quotient fits, and r is its remainder. -/
theorem truncatedDivisionLaw : Obligations.TruncatedDivisionLaw := by
  rintro m s t w rfl htrunc hexc h
  obtain ⟨-, hz, -, rfl⟩ := execDiv_next h
  rw [htrunc]
  have hone : ¬ (signed s.a = -8388608 ∧ signed (s.wordAt (targetAddr m s)) = -1) :=
    fun ⟨hn, hd⟩ => hexc ⟨BitVec.eq_of_toInt_eq hn, BitVec.eq_of_toInt_eq hd⟩
  have hq := signed_trunc24 (tdiv_fits (signed_fits s.a) hz hone)
  refine ⟨Int.tmod (signed s.a) (signed (s.wordAt (targetAddr m s))), ?_, natAbs_tmod_lt _ hz, tmod_eq_zero_or_same_sign _ _⟩
  calc signed s.a
    _ = Int.tdiv (signed s.a) (signed (s.wordAt (targetAddr m s))) * signed (s.wordAt (targetAddr m s)) +
          Int.tmod (signed s.a) (signed (s.wordAt (targetAddr m s))) := (Int.tdiv_mul_add_tmod _ _).symm
    _ = _ := congrArg (· * _ + _) hq.symm

end Sys2Proof.Machine
end

section
/-! Proofs of the logical obligations (42_logical.md).

An admitted AND or OR has its `Effect`, whose A is the model's `&&&` or `|||` of A with the word; bit `k` of those is the
conjunction or disjunction of the operands' bits. -/

namespace Sys2Proof.Machine

theorem exec_andOr_beyond {m : Operand} {s : State} (h : ¬ Admitted (targetAddr m s) 3) :
    ∀ i ∈ [Instr.and m, .or m], exec i s = s.raise (.addressFault .read s.instrAddr (targetAddr m s)) := by
  simp only [List.forall_mem_cons, List.not_mem_nil, false_imp_iff, implies_true, and_true]
  exact ⟨s.readWordThen_beyond _ (fun v => .next (s.setA (s.a &&& v))) h,
    s.readWordThen_beyond _ (fun v => .next (s.setA (s.a ||| v))) h⟩

/-- Settles O16: the effects of AND and OR, read bit by bit, and the read fault they share. -/
theorem andOrActBitByBit : Obligations.AndOrActBitByBit := by
  rintro m s w rfl
  refine ⟨⟨rfl, rfl⟩, fun ha => ⟨?and, ?or⟩, fun hb => exec_andOr_beyond (Nat.not_le.mpr hb)⟩
  case and => exact ⟨_, (Effect.and m ha).exec_eq, fun _ _ => BitVec.getLsbD_and⟩
  case or => exact ⟨_, (Effect.or m ha).exec_eq, fun _ _ => BitVec.getLsbD_or⟩

end Sys2Proof.Machine
end

section
/-! Proofs of the compare obligations (43_compare.md).

An admitted COMP or TIX has its `Effect`, whose CC is the model's `compareCC`; the three signed cases of that CC are
said once, of any instruction that answers it. -/

namespace Sys2Proof.Machine

/-! ## The signed comparison -/

theorem compareCC_of_lt {v w : Word} (h : signed v < signed w) : compareCC v w = .lt := if_pos h

@[simp] theorem compareCC_self (v : Word) : compareCC v v = .eq := by simp [compareCC]

theorem compareCC_of_gt {v w : Word} (h : signed w < signed v) : compareCC v w = .gt := by
  rw [compareCC, if_neg (Int.not_lt.mpr h.le), if_neg h.ne']

/-- An instruction that sets CC by a comparison, taken apart by the order of the two words (R105, R106). -/
theorem compared_clauses {r : Result} {t : State} {v w : Word} (h : r = .next (t.setCC (compareCC v w))) :
    (signed v < signed w → r = .next (t.setCC .lt)) ∧ (v = w → r = .next (t.setCC .eq)) ∧
    (signed w < signed v → r = .next (t.setCC .gt)) := by
  refine ⟨fun hlt => ?_, fun heq => ?_, fun hgt => ?_⟩
  · rw [h, compareCC_of_lt hlt]
  · rw [h, heq, compareCC_self]
  · rw [h, compareCC_of_gt hgt]

/-! ## COMP -/

theorem exec_comp_beyond {m : Operand} {s : State} (h : ¬ Admitted (targetAddr m s) 3) :
    exec (.comp m) s = s.raise (.addressFault .read s.instrAddr (targetAddr m s)) :=
  s.readWordThen_beyond _ (fun v => .next (s.setCC (compareCC s.a v))) h

/-- Settles O17: the effect of COMP by the order of A and the word, and the fault of its read. -/
theorem compComparesSignedAWithTheWord : Obligations.CompComparesSignedAWithTheWord := by
  rintro m s w rfl
  exact ⟨rfl, fun ha => compared_clauses (Effect.comp m ha).exec_eq, fun hb => exec_comp_beyond (Nat.not_le.mpr hb)⟩

/-! ## TIX -/

/-- The increment of a word can leave the range only upward. -/
theorem signed_succ_fits_iff (v : Word) : Fits (signed v + 1) ↔ signed v + 1 ≤ 8388607 := by
  have hv := signed_fits v
  omega

theorem exec_tix_overflow {m : Operand} {s : State} (ha : Admitted (targetAddr m s) 3)
    (ho : s.params.arithOverflow = .fault) (hz : ¬ Fits (signed s.x + 1)) :
    exec (.tix m) s = s.raise (.arithmeticOverflow s.instrAddr) := by
  rw [exec, execTix, s.readWordThen_of _ _ ha, State.narrowThen_overflow _ ho hz]

theorem exec_tix_beyond {m : Operand} {s : State} (h : ¬ Admitted (targetAddr m s) 3) :
    exec (.tix m) s = s.raise (.addressFault .read s.instrAddr (targetAddr m s)) := by
  rw [exec, execTix, s.readWordThen_beyond _ _ h]

/-- Settles O18: the effect of TIX by the order of the new X and the word, the overflow of its increment under fault,
and the fault of its read. -/
theorem tixIncrementsThenCompares : Obligations.TixIncrementsThenCompares := by
  rintro m s w x' rfl rfl
  refine ⟨rfl, fun ha hf => ?next, fun ha ho hx => ?overflow, fun hb => exec_tix_beyond (Nat.not_le.mpr hb)⟩
  case next =>
    have hfit := hf.imp_right (signed_succ_fits_iff s.x).mpr
    exact compared_clauses (Effect.tix m ha hfit).exec_eq
  case overflow =>
    have hover := mt (signed_succ_fits_iff s.x).mp (Int.not_le.mpr hx)
    exact exec_tix_overflow ha ho hover

end Sys2Proof.Machine
end

section
/-! Proofs of the jump obligations (44_jump.md).

The three conditional jumps are one operation, `State.jumpWhen`, at three values of CC (`exec_conditionalJump`); what it
answers is said once, for any set value. -/

namespace Sys2Proof.Machine

/-! ## The jump's own check -/

theorem State.targetThen_beyond {s : State} {ta : Nat} (rest : Word → Result) (h : lastAddress < ta) :
    s.targetThen ta rest = s.raise (.addressFault .jump s.instrAddr ta) := if_pos h

theorem State.jumpTo_beyond {s : State} {ta : Nat} (h : lastAddress < ta) :
    s.jumpTo ta = s.raise (.addressFault .jump s.instrAddr ta) := State.targetThen_beyond _ h

theorem State.setPc_trunc24 (s : State) (ta : Nat) : s.setPc (trunc24 ta) = { s with pc := BitVec.ofNat 24 ta } :=
  congrArg s.setPc (trunc24_natCast ta)

/-- Settles O19: J is the taken jump, with no condition. -/
theorem jumpGoesToTheTarget : Obligations.JumpGoesToTheTarget := by
  refine fun m s => ⟨rfl, fun ht => ?_, fun hb => State.jumpTo_beyond hb⟩
  rw [(Effect.j m ht).exec_eq, State.setPc_trunc24]

/-! ## The conditional jump -/

theorem State.jumpWhen_unset {s : State} {c : CC} {ta : Nat} (hu : s.cc = .unset) :
    s.jumpWhen c ta = s.raise (.ccUnset s.instrAddr) := if_pos hu

theorem State.jumpWhen_beyond {s : State} {c : CC} {ta : Nat} (hu : c ≠ .unset) (hc : s.cc = c)
    (h : lastAddress < ta) : s.jumpWhen c ta = s.raise (.addressFault .jump s.instrAddr ta) := by
  rw [State.jumpWhen, if_neg (hc ▸ hu), if_pos hc, State.jumpTo_beyond h]

/-- The conditional jumps to one operand, each with the CC it jumps on (R112, R113, R114). -/
def conditionalJumps (m : Operand) : List (Instr × CC) := [(.jeq m, .eq), (.jgt m, .gt), (.jlt m, .lt)]

theorem exec_conditionalJump {m : Operand} {p : Instr × CC} (hp : p ∈ conditionalJumps m) (s : State) :
    exec p.1 s = s.jumpWhen p.2 (targetAddr m s) := by
  revert p
  simp only [conditionalJumps, List.forall_mem_cons, List.not_mem_nil, false_imp_iff, implies_true, and_true]
  exact ⟨rfl, rfl, rfl⟩

theorem conditionalJump_ne_unset {m : Operand} {p : Instr × CC} (hp : p ∈ conditionalJumps m) : p.2 ≠ .unset := by
  revert p
  simp [conditionalJumps]

/-- Settles O20: what `State.jumpWhen` answers at each of the three values. -/
theorem conditionalJumpsFollowCC : Obligations.ConditionalJumpsFollowCC := by
  refine fun m s => ⟨⟨rfl, rfl, rfl⟩, fun p hp => ?_⟩
  have hset : p.2 ≠ .unset := conditionalJump_ne_unset hp
  rw [exec_conditionalJump hp s]
  refine ⟨State.jumpWhen_unset, fun hc ht => ?taken, State.jumpWhen_beyond hset, State.jumpWhen_notTaken⟩
  case taken => rw [State.jumpWhen_taken hset hc ht, State.setPc_trunc24]

/-! ## Exactly one of the three -/

theorem exists_conditionalJump_on (m : Operand) {c : CC} (hu : c ≠ .unset) : ∃ p ∈ conditionalJumps m, c = p.2 := by
  cases c with
  | eq => exact ⟨(.jeq m, .eq), by simp [conditionalJumps], rfl⟩
  | gt => exact ⟨(.jgt m, .gt), by simp [conditionalJumps], rfl⟩
  | lt => exact ⟨(.jlt m, .lt), by simp [conditionalJumps], rfl⟩
  | unset => exact absurd rfl hu

/-- No two of the jumps jump on the same CC. -/
theorem conditionalJump_eq_of_cc_eq {m : Operand} :
    ∀ p ∈ conditionalJumps m, ∀ q ∈ conditionalJumps m, p.2 = q.2 → p.1 = q.1 := by
  simp [conditionalJumps, List.forall_mem_cons, -List.mem_cons]

/-- Settles O21: the jump on the present CC is taken; another one jumps on another CC, and so falls through. -/
theorem exactlyOneConditionalJumpIsTaken : Obligations.ExactlyOneConditionalJumpIsTaken := by
  intro m s hu ht _
  obtain ⟨p, hp, hc⟩ := exists_conditionalJump_on m hu
  refine ⟨p.1, List.mem_map_of_mem hp, ⟨s.setPc (trunc24 (targetAddr m s)), ?taken, trunc24_toNat_of_inMemory ht⟩,
    fun k hk hne => ?other⟩
  case taken =>
    exact (exec_conditionalJump hp s).trans (State.jumpWhen_taken (conditionalJump_ne_unset hp) hc ht)
  case other =>
    obtain ⟨q, hq, rfl⟩ : ∃ q ∈ conditionalJumps m, q.1 = k := List.mem_map.mp hk
    have hother : s.cc ≠ q.2 := fun h => hne (conditionalJump_eq_of_cc_eq q hq p hp (h.symm.trans hc))
    exact (exec_conditionalJump hq s).trans (State.jumpWhen_notTaken hu hother)

end Sys2Proof.Machine
end

section
/-! Proofs of the subroutine obligations (45_subroutine.md).

JSUB and RSUB are their `Effect`s. JSUB overwrites L without reading it (`Effect.jsub_of_setL`), which is why an RSUB
can return only after the latest JSUB. -/

namespace Sys2Proof.Machine

/-! ## JSUB -/

theorem exec_jsub_beyond {m : Operand} {s : State} (h : lastAddress < targetAddr m s) :
    exec (.jsub m) s = s.raise (.addressFault .jump s.instrAddr (targetAddr m s)) :=
  State.targetThen_beyond (fun p => .next ((s.setL s.pc).setPc p)) h

/-- Settles O22: the effect of JSUB, and the fault of its target. -/
theorem jsubSavesTheReturnAddress : Obligations.JsubSavesTheReturnAddress := by
  refine fun m s => ⟨rfl, fun ht => ?_, fun hb => exec_jsub_beyond hb⟩
  rw [(Effect.jsub m ht).exec_eq, State.setPc_trunc24]
  rfl

/-! ## RSUB -/

/-- The opcode byte alone makes a word RSUB: the operand field is dropped (R72). -/
theorem decodeWord_of_opcode_rsub {w : Word} (h : opcodeField w = Instr.rsub.opcode) : decodeWord w = .ok .rsub := by
  rw [decodeWord, h]
  rfl

theorem opcodeField_append (op : Byte) (bits : BitVec 16) : opcodeField (op ++ bits : BitVec 24) = op :=
  BitVec.extractLsb'_append_eq_left

/-- Settles O23: the effect of RSUB, its word by evaluation, and the decoder, which reads the opcode byte alone. -/
theorem rsubCopiesLWhateverItsOperandBits : Obligations.RsubCopiesLWhateverItsOperandBits :=
  ⟨fun _ => Effect.rsub.exec_eq, rfl, fun bits => decodeWord_of_opcode_rsub (opcodeField_append 0x4C bits)⟩

/-! ## Return after the latest JSUB -/

theorem Effect.jsub_l {m : Operand} {s t : State} (h : Effect s (.jsub m) t) : t.l = s.pc := by
  cases h
  rfl

/-- JSUB has the same effect, L included, whatever L held (R123). -/
theorem Effect.jsub_of_setL {m : Operand} {s t : State} {old : Word} (h : Effect (s.setL old) (.jsub m) t) :
    Effect s (.jsub m) t := by
  cases h with
  | jsub _ ht => exact Effect.jsub (s := s) m ht

/-- Settles O24: RSUB copies the return address that JSUB left in L, and JSUB does not read L. -/
theorem rsubReturnsAfterTheLatestJsub : Obligations.RsubReturnsAfterTheLatestJsub := by
  refine ⟨fun m s t u h hl => ?returns, fun n u v old h => ?overwrites⟩
  case returns =>
    have hret : u.l = s.pc := hl.trans (exec_effect h).jsub_l
    rw [← hret]
    exact Effect.rsub.exec_eq
  case overwrites =>
    have heffect : Effect u (.jsub n) v := (exec_effect (s := u.setL old) h).jsub_of_setL
    exact ⟨heffect.jsub_l, heffect.exec_eq⟩

end Sys2Proof.Machine
end

section
/-! Proofs of the I/O obligations (46_io.md).

An admitted TD, and a transfer of an armed device, has its `Effect`; what a test answers is said once
(`tested_clauses`), and a transfer of another device raises the fault of the check that RD and WD share (R135). A
history stays disciplined because a step appends at most one event, and a transfer only of an armed device. -/

namespace Sys2Proof.Machine

/-! ## The discipline of transfers -/

theorem Disciplined.append {h : List IOEvent} {e : IOEvent} (hd : Disciplined h)
    (he : e.isTransfer = true → ArmedAfter h e.device) : Disciplined (h ++ [e]) := by
  intro before v later heq hv
  rcases List.eq_nil_or_concat later with rfl | ⟨init, last, rfl⟩
  · obtain ⟨rfl, rfl⟩ : h = before ∧ e = v := List.append_singleton_inj.mp heq
    exact he hv
  · have heq' : h ++ [e] = (before ++ v :: init) ++ [last] := by simpa using heq
    obtain ⟨hinit, -⟩ := List.append_singleton_inj.mp heq'
    exact hd before v init hinit hv

theorem Effect.disciplined {s t : State} {i : Instr} (h : Effect s i t) (hs : DeviceInv s)
    (hd : Disciplined s.history) : Disciplined t.history := by
  cases h with
  | td m _ => exact hd.append fun htransfer => absurd htransfer Bool.false_ne_true
  | rd m _ hr | wd m _ hr => exact hd.append fun _ => (hs.computed _).mp hr
  | _ => exact hd

/-- Settles O57: the event a step appends, if it is a transfer, is of a device in `armed`, which is what the history
before it armed; the fetch touches neither. -/
theorem stepKeepsTransfersDisciplined : Obligations.StepKeepsTransfersDisciplined := by
  intro s t hs hd h
  obtain ⟨-, -, -, i, -, hi⟩ := step_next h
  exact (exec_effect hi).disciplined (hs.congr rfl rfl) hd

/-! ## The environment's answers -/

/-- One more answer prepared for the next test (log 10); all else is kept. -/
def State.prepareTest (s : State) (r : Readiness) : State :=
  { s with env := { s.env with tests := r :: s.env.tests } }

/-- One more answer prepared for the next read (log 10); all else is kept. -/
def State.prepareRead (s : State) (b : Byte) : State :=
  { s with env := { s.env with reads := b :: s.env.reads } }

theorem State.testAnswer_prepareTest (s : State) (r : Readiness) (d : Byte) : (s.prepareTest r).testAnswer d = r := rfl

theorem State.readAnswer_prepareRead (s : State) (b d : Byte) : (s.prepareRead b).readAnswer d = b := rfl

/-- Settles O28: the environment that has the wished answer prepared gives it. -/
theorem everyDeviceAnswerIsPossible : Obligations.EveryDeviceAnswerIsPossible := by
  refine fun m s ha => ⟨fun r => ⟨(s.prepareTest r).env, _, (Effect.td (s := s.prepareTest r) m ha).exec_eq, ?test⟩,
    fun hr b => ⟨(s.prepareRead b).env, _, (Effect.rd (s := s.prepareRead b) m ha hr).exec_eq, ?read⟩⟩
  case test =>
    exact congrArg (fun answer => s.history ++ [IOEvent.td (s.byteAt (targetAddr m s)) answer])
      (s.testAnswer_prepareTest r _)
  case read => exact (withRmb_low s.a _).trans (s.readAnswer_prepareRead b _)

/-! ## The faults -/

theorem exec_io_beyond {m : Operand} {s : State} (h : ¬ Admitted (targetAddr m s) 1) :
    ∀ i ∈ [Instr.td m, .rd m, .wd m], exec i s = s.raise (.addressFault .read s.instrAddr (targetAddr m s)) := by
  simp only [List.forall_mem_cons, List.not_mem_nil, false_imp_iff, implies_true, and_true]
  exact ⟨if_neg h, if_neg h, if_neg h⟩

/-- The two transfers to one operand, each with the kind its fault names (R172). -/
theorem exec_transfer_of_not_armed {m : Operand} {s : State} (ha : Admitted (targetAddr m s) 1)
    (hd : s.byteAt (targetAddr m s) ∉ s.armed) :
    ∀ p ∈ [(Instr.rd m, TransferKind.rd), (.wd m, .wd)],
      exec p.1 s = s.raise (.ioNotReady p.2 s.instrAddr (s.byteAt (targetAddr m s))) := by
  simp only [List.forall_mem_cons, List.not_mem_nil, false_imp_iff, implies_true, and_true]
  exact ⟨(if_pos ha).trans (if_neg hd), (if_pos ha).trans (if_neg hd)⟩

/-! ## TD, RD and WD -/

/-- What a test leaves in CC and in `armed`, by its answer (R132). -/
theorem tested_clauses (armed : List Byte) (d : Byte) (r : Readiness) :
    (r = .ready → readinessCC r = .lt ∧ ∀ e, e ∈ armedBy armed d r ↔ e ∈ armed ∨ e = d) ∧
    (r = .busy → readinessCC r = .eq ∧ ∀ e, e ∈ armedBy armed d r ↔ e ∈ armed ∧ e ≠ d) := by
  constructor
  · rintro rfl
    exact ⟨rfl, fun e => (mem_armDevice armed d e).trans or_comm⟩
  · rintro rfl
    exact ⟨rfl, mem_disarmDevice armed d⟩

/-- Settles O25: the effect of TD by the environment's answer, and the fault of its read. -/
theorem tdSetsCCAndArmsByTheAnswer : Obligations.TdSetsCCAndArmsByTheAnswer := by
  rintro m s d rfl
  refine ⟨rfl, fun ha => ?next, fun hb => exec_io_beyond (Nat.not_le.mpr hb) _ (by simp)⟩
  case next =>
    obtain ⟨hready, hbusy⟩ :=
      tested_clauses s.armed (s.byteAt (targetAddr m s)) (s.testAnswer (s.byteAt (targetAddr m s)))
    exact ⟨_, (Effect.td m ha).exec_eq, rfl, hready, hbusy, rfl⟩

/-- Settles O26: the effect of RD on an armed device, and its two faults. -/
theorem rdReadsOneByteFromAnArmedDevice : Obligations.RdReadsOneByteFromAnArmedDevice := by
  rintro m s d rfl
  exact ⟨rfl, fun ha hr => ⟨_, (Effect.rd m ha hr).exec_eq, rfl, rfl, mem_disarmDevice s.armed _, rfl⟩,
    fun ha hn => exec_transfer_of_not_armed ha hn (.rd m, .rd) (by simp),
    fun hb => exec_io_beyond (Nat.not_le.mpr hb) _ (by simp)⟩

/-- Settles O27: the effect of WD on an armed device, and its two faults. -/
theorem wdWritesOneByteToAnArmedDevice : Obligations.WdWritesOneByteToAnArmedDevice := by
  rintro m s d rfl
  exact ⟨rfl, fun ha hr => ⟨_, (Effect.wd m ha hr).exec_eq, rfl, mem_disarmDevice s.armed _, rfl⟩,
    fun ha hn => exec_transfer_of_not_armed ha hn (.wd m, .wd) (by simp),
    fun hb => exec_io_beyond (Nat.not_le.mpr hb) _ (by simp)⟩

end Sys2Proof.Machine
end

section
/-! Proofs of the fault obligations (60_exceptions.md).

`FaultCause` is R172's table, one constructor per row, and `Answers` what an execution can end in: a next state, or a
fault raised for a cause, never a refusal. Each shared operation is given its answers once; an instruction's are put
together from the operations it is written with (`exec_answers`). -/

namespace Sys2Proof.Machine

/-- Settles O38, which is the definition of `State.raise`. -/
theorem raiseRecordsTheFaultAndNothingElse : Obligations.RaiseRecordsTheFaultAndNothingElse := fun _ _ => rfl

/-! ## Which fault has its cause in which instruction -/

/-- `FaultCause s i f`: in `s` instruction `i` has the cause to raise `f` that R172 names. Of an overflow this is the
parameter alone: which results fit is said where the instruction has its `Effect`. -/
inductive FaultCause (s : State) : Instr → FaultMark → Prop where
  | readWord {i : Instr} (m : Operand)
      (hi : i ∈ [Instr.lda m, .ldl m, .ldx m, .add m, .sub m, .mul m, .div m, .and m, .or m, .comp m, .tix m])
      (hb : ¬ Admitted (targetAddr m s) 3) :
      FaultCause s i (.addressFault .read s.instrAddr (targetAddr m s))
  | readByte {i : Instr} (m : Operand)
      (hi : i ∈ [Instr.ldch m, .td m, .rd m, .wd m])
      (hb : ¬ Admitted (targetAddr m s) 1) :
      FaultCause s i (.addressFault .read s.instrAddr (targetAddr m s))
  | writeWord {i : Instr} (m : Operand)
      (hi : i ∈ [Instr.sta m, .stl m, .stx m, .stsw m])
      (hb : ¬ Admitted (targetAddr m s) 3) :
      FaultCause s i (.addressFault .write s.instrAddr (targetAddr m s))
  | writeByte (m : Operand)
      (hb : ¬ Admitted (targetAddr m s) 1) :
      FaultCause s (.stch m) (.addressFault .write s.instrAddr (targetAddr m s))
  | jump {i : Instr} (m : Operand)
      (hi : i ∈ [Instr.j m, .jsub m])
      (hb : lastAddress < targetAddr m s) :
      FaultCause s i (.addressFault .jump s.instrAddr (targetAddr m s))
  | conditionalJump {i : Instr} (m : Operand)
      (hi : (i, s.cc) ∈ conditionalJumps m)
      (hb : lastAddress < targetAddr m s) :
      FaultCause s i (.addressFault .jump s.instrAddr (targetAddr m s))
  | ccUnset {i : Instr} (m : Operand)
      (hi : i ∈ [Instr.jeq m, .jgt m, .jlt m])
      (hu : s.cc = .unset) :
      FaultCause s i (.ccUnset s.instrAddr)
  | divideByZero (m : Operand)
      (hz : signed (s.wordAt (targetAddr m s)) = 0) :
      FaultCause s (.div m) (.divideByZero s.instrAddr)
  | overflow {i : Instr} (m : Operand)
      (hi : i ∈ [Instr.add m, .sub m, .mul m, .div m, .tix m])
      (ho : s.params.arithOverflow = .fault) :
      FaultCause s i (.arithmeticOverflow s.instrAddr)
  | notArmed {i : Instr} {k : TransferKind} (m : Operand)
      (hi : (i, k) ∈ [(Instr.rd m, TransferKind.rd), (.wd m, .wd)])
      (hd : s.byteAt (targetAddr m s) ∉ s.armed) :
      FaultCause s i (.ioNotReady k s.instrAddr (s.byteAt (targetAddr m s)))

/-! ## What an execution can end in -/

/-- `Answers s i r`: the answer `r` is a next state, or a fault raised in `s` that `i` has the cause of. -/
inductive Answers (s : State) (i : Instr) : Result → Prop where
  | next (t : State) : Answers s i (.next t)
  | raise (f : FaultMark) (hf : FaultCause s i f) : Answers s i (s.raise f)

namespace Answers

variable {s : State} {i : Instr} {ta : Nat}

theorem next_or_fault {r : Result} (h : Answers s i r) : (∃ t, r = .next t) ∨ (∃ g, r = .fault g) := by
  cases h with
  | next t => exact .inl ⟨t, rfl⟩
  | raise f _ => exact .inr ⟨.raised f (s.record f), rfl⟩

theorem of_raised {f : FaultMark} {u : State} (h : Answers s i (.fault (.raised f u))) :
    u = s.record f ∧ FaultCause s i f := by
  cases h with
  | raise _ hf => exact ⟨rfl, hf⟩

/-! An operation checks a condition and raises a fault on one side of it. -/

theorem raise_unless {c : Prop} [Decidable c] {r : Result} {f : FaultMark} (hf : ¬ c → FaultCause s i f)
    (hr : Answers s i r) : Answers s i (if c then r else s.raise f) := by
  split
  · exact hr
  · next h => exact .raise f (hf h)

theorem raise_if {c : Prop} [Decidable c] {r : Result} {f : FaultMark} (hf : c → FaultCause s i f)
    (hr : Answers s i r) : Answers s i (if c then s.raise f else r) := by
  split
  · next h => exact .raise f (hf h)
  · exact hr

theorem readWordThen {rest : Word → Result}
    (hb : ¬ Admitted ta 3 → FaultCause s i (.addressFault .read s.instrAddr ta))
    (hrest : Answers s i (rest (s.wordAt ta))) : Answers s i (s.readWordThen ta rest) := raise_unless hb hrest

theorem readByteThen {rest : Byte → Result}
    (hb : ¬ Admitted ta 1 → FaultCause s i (.addressFault .read s.instrAddr ta))
    (hrest : Answers s i (rest (s.byteAt ta))) : Answers s i (s.readByteThen ta rest) := raise_unless hb hrest

theorem storeWord {v : Word} (hb : ¬ Admitted ta 3 → FaultCause s i (.addressFault .write s.instrAddr ta)) :
    Answers s i (s.storeWord ta v) := raise_unless hb (.next _)

theorem storeByte {b : Byte} (hb : ¬ Admitted ta 1 → FaultCause s i (.addressFault .write s.instrAddr ta)) :
    Answers s i (s.storeByte ta b) := raise_unless hb (.next _)

theorem narrowThen {z : Int} {rest : Word → Result}
    (ho : s.params.arithOverflow = .fault → FaultCause s i (.arithmeticOverflow s.instrAddr))
    (hrest : Answers s i (rest (trunc24 z))) : Answers s i (s.narrowThen z rest) :=
  raise_if (fun hc => ho hc.1) hrest

theorem targetThen {rest : Word → Result}
    (hb : lastAddress < ta → FaultCause s i (.addressFault .jump s.instrAddr ta))
    (hrest : Answers s i (rest (trunc24 ta))) : Answers s i (s.targetThen ta rest) := raise_if hb hrest

theorem jumpTo (hb : lastAddress < ta → FaultCause s i (.addressFault .jump s.instrAddr ta)) :
    Answers s i (s.jumpTo ta) := targetThen hb (.next _)

theorem jumpWhen {c : CC} (hu : s.cc = .unset → FaultCause s i (.ccUnset s.instrAddr))
    (hb : s.cc = c → lastAddress < ta → FaultCause s i (.addressFault .jump s.instrAddr ta)) :
    Answers s i (s.jumpWhen c ta) := by
  refine raise_if hu ?_
  split
  · next hc => exact jumpTo (hb hc)
  · exact .next _

theorem armedThen {k : TransferKind} {d : Byte} {rest : Result}
    (hd : d ∉ s.armed → FaultCause s i (.ioNotReady k s.instrAddr d)) (hrest : Answers s i rest) :
    Answers s i (s.armedThen k d rest) := raise_unless hd hrest

end Answers

/-! ## All instructions -/

/-- An instruction answers a next state, or raises a fault it has the cause of. -/
theorem exec_answers (i : Instr) (s : State) : Answers s i (exec i s) := by
  unfold exec
  cases i with
  | lda m | ldl m | ldx m | and m | or m | comp m => exact .readWordThen (.readWord m (by simp)) (.next _)
  | ldch m | td m => exact .readByteThen (.readByte m (by simp)) (.next _)
  | sta m | stl m | stx m | stsw m => exact .storeWord (.writeWord m (by simp))
  | stch m => exact .storeByte (.writeByte m)
  | add m | sub m | mul m | tix m =>
    exact .readWordThen (.readWord m (by simp)) (.narrowThen (.overflow m (by simp)) (.next _))
  | div m =>
    exact .readWordThen (.readWord m (by simp))
      (.raise_if (.divideByZero m) (.narrowThen (.overflow m (by simp)) (.next _)))
  | j m => exact .jumpTo (.jump m (by simp))
  | jeq m | jgt m | jlt m =>
    exact .jumpWhen (.ccUnset m (by simp)) fun hc => .conditionalJump m (by simp [conditionalJumps, hc])
  | jsub m => exact .targetThen (.jump m (by simp)) (.next _)
  | rsub => exact .next _
  | rd m | wd m =>
    exact .readByteThen (.readByte m (by simp)) (.armedThen (.notArmed m (by simp)) (.next _))

/-- Settles O41: neither of the two answers is a refusal. -/
theorem noInstructionIsEverRefused : Obligations.NoInstructionIsEverRefused :=
  fun i s => (exec_answers i s).next_or_fault

/-- The inversion of a fault, as `exec_effect` is that of a next state. -/
theorem exec_fault {i : Instr} {s u : State} {f : FaultMark} (h : exec i s = .fault (.raised f u)) :
    u = s.record f ∧ FaultCause s i f :=
  (h ▸ exec_answers i s).of_raised

/-- Settles O39: a raised fault is recorded in the start state, and every cause names the instruction's address. -/
theorem instructionFaultsArePrecise : Obligations.InstructionFaultsArePrecise := by
  intro i s u f h
  obtain ⟨rfl, hcause⟩ := exec_fault h
  refine ⟨rfl, ?_⟩
  cases hcause with
  | readWord | readByte | writeWord | writeByte | jump | conditionalJump => exact .inl ⟨_, _, rfl⟩
  | ccUnset => exact .inr (.inl rfl)
  | divideByZero => exact .inr (.inr (.inl rfl))
  | overflow => exact .inr (.inr (.inr (.inl rfl)))
  | notArmed => exact .inr (.inr (.inr (.inr ⟨_, _, rfl⟩)))

/-- Settles O40: the causes of each fault, read off the constructors that answer it. -/
theorem eachFaultIsRaisedByItsInstructions : Obligations.EachFaultIsRaisedByItsInstructions := by
  intro i s u f h
  obtain ⟨-, hcause⟩ := exec_fault h
  refine ⟨?fetch, ?illegal, ?read, ?write, ?jump, ?ccUnset, ?divideByZero, ?overflow, ?notArmed⟩
  case fetch => rintro p n rfl; cases hcause
  case illegal => rintro p op rfl; cases hcause
  case read =>
    rintro p n rfl
    cases hcause with
    | readWord m hi hb => exact ⟨m, rfl, .inl ⟨hi, Nat.not_le.mp hb⟩⟩
    | readByte m hi hb => exact ⟨m, rfl, .inr ⟨hi, Nat.not_le.mp hb⟩⟩
  case write =>
    rintro p n rfl
    cases hcause with
    | writeWord m hi hb => exact ⟨m, rfl, .inl ⟨hi, Nat.not_le.mp hb⟩⟩
    | writeByte m hb => exact ⟨m, rfl, .inr ⟨rfl, Nat.not_le.mp hb⟩⟩
  case jump =>
    rintro p n rfl
    cases hcause with
    | jump m hi hb => exact ⟨m, rfl, hb, .inl hi⟩
    | conditionalJump m hi hb => exact ⟨m, rfl, hb, .inr (by simpa [conditionalJumps] using hi)⟩
  case ccUnset =>
    rintro p rfl
    cases hcause with
    | ccUnset m hi hu => exact ⟨hu, m, hi⟩
  case divideByZero =>
    rintro p rfl
    cases hcause with
    | divideByZero m hz => exact ⟨m, rfl, BitVec.eq_of_toInt_eq hz⟩
  case overflow =>
    rintro p rfl
    cases hcause with
    | overflow m hi ho => exact ⟨ho, m, hi⟩
  case notArmed =>
    rintro k p d rfl
    cases hcause with
    | notArmed m hi hd => exact ⟨hd, m, rfl, by simpa [and_comm] using hi⟩

end Sys2Proof.Machine
end

section
/-! Proofs of the obligations on whole runs (70_reset_and_hazards.md, log 19).

A step from a state that is not final answers a next state or a fault; an invariant of a run is shown at the launch and
for one step (`Reaches.keeps`); a placed word is a word store at PC, which the next fetch reads back. -/

namespace Sys2Proof.Machine

/-! ## The end of a run -/

theorem step_of_final {s : State} (h : s.Final) : step s = .refused (.runOver s) := by
  simp [step, h.1, h]

/-- Away from the end of the run no step is refused: neither branch of the fetch that stops is a refusal, nor is any
instruction's answer. -/
theorem step_next_or_fault {s : State} (h : ¬ s.Final) : (∃ t, step s = .next t) ∨ (∃ g, step s = .fault g) := by
  cases hf : s.faultMark with
  | some f => exact .inr ⟨_, step_of_marked hf⟩
  | none =>
    have hr : s.pc ≠ s.params.ret := fun hr => h ⟨hf, hr⟩
    by_cases ha : Admitted s.pc.toNat 3
    · cases hd : decodeWord (s.wordAt s.pc.toNat) with
      | error e => exact .inr ⟨_, step_of_decode_error hf hr ha hd⟩
      | ok i =>
        rw [step_of_decode hf hr ha hd]
        exact noInstructionIsEverRefused i s.advance
    · exact .inr ⟨_, step_of_fetch_beyond hf hr ha⟩

/-- The inversion of a refusal, as `step_next` is that of a next state. -/
theorem step_refused {s : State} {r : Refusal} (h : step s = .refused r) : r = .runOver s ∧ s.Final := by
  by_cases hfinal : s.Final
  · rw [step_of_final hfinal] at h
    cases h
    exact ⟨rfl, hfinal⟩
  · obtain ⟨t, ht⟩ | ⟨g, hg⟩ := step_next_or_fault hfinal
    · cases ht.symm.trans h
    · cases hg.symm.trans h

/-- Settles O45: a final state is refused as over, and no other state is refused. -/
theorem stepIsRefusedExactlyWhenTheRunIsOver : Obligations.StepIsRefusedExactlyWhenTheRunIsOver := by
  intro s r
  constructor
  · intro h
    obtain ⟨hr, hmark, hpc⟩ := step_refused h
    exact ⟨hr, hpc, hmark⟩
  · rintro ⟨rfl, hpc, hmark⟩
    exact step_of_final ⟨hmark, hpc⟩

/-! ## The invariants at the start -/

theorem loadImage_wf {m : Memory} {image : List Host.Cell} (hm : Memory.wf m = true)
    (hb : ∀ c ∈ image, c.1 ≤ lastAddress) : Memory.wf (loadImage m image) = true := by
  induction image generalizing m with
  | nil => exact hm
  | cons c t ih =>
    obtain ⟨hbc, hbt⟩ := List.forall_mem_cons.mp hb
    exact ih (Memory.write_wf m _ _ hm hbc) hbt

theorem Disciplined.nil : Disciplined [] := by
  intro before e later h
  simp at h

theorem DeviceInv.of_empty {s : State} (ha : s.armed = []) (hh : s.history = []) : DeviceInv s where
  canonical := by rw [ha]; rfl
  computed d := by simp [ha, hh, latestEvent]

/-- Settles O54: no byte is listed, no device is armed and no event has happened. -/
theorem resetMeetsTheInvariants : Obligations.ResetMeetsTheInvariants :=
  ⟨reset_memory_wf, .of_empty rfl rfl, .nil⟩

/-! ## The invariants along a run -/

/-- What holds at the start of a run and is kept by every step holds in every state the run reaches. -/
theorem Reaches.keeps {P : State → Prop} {s t : State} (h : Reaches s t) (hs : P s)
    (hstep : ∀ u v, P u → step u = .next v → P v) : P t := by
  induction h with
  | start => exact hs
  | later _ now ih => exact hstep _ _ ih now

/-- No step changes the rest of SW, a parameter or the fault mark; the fetch does not touch them (R31, R36, R37). -/
theorem step_keeps_swRest_params_mark {s t : State} (h : step s = .next t) :
    t.swRest = s.swRest ∧ t.params = s.params ∧ t.faultMark = s.faultMark := by
  obtain ⟨-, -, -, i, -, hi⟩ := step_next h
  obtain ⟨hsw, hparams, hmark, -⟩ := noInstructionChangesSwRestParamsOrMark i s.advance t hi
  exact ⟨hsw, hparams, hmark⟩

/-- What every state of a run from the launch `p` satisfies. -/
structure Sound (p : Launch) (t : State) : Prop where
  memory : MemoryInv t
  devices : DeviceInv t
  disciplined : Disciplined t.history
  unmarked : t.faultMark = none
  ret : t.params.ret = p.ret
  swRest : t.swRest = p.initSwRest

theorem Launch.state_sound {p : Launch} (hp : p.admitted = true) : Sound p p.state := by
  obtain ⟨-, hb, hm⟩ := Launch.admitted_iff.mp hp
  exact ⟨loadImage_wf hm hb, .of_empty rfl rfl, .nil, rfl, rfl, rfl⟩

theorem Sound.of_step {p : Launch} {s t : State} (hs : Sound p s) (h : step s = .next t) : Sound p t := by
  obtain ⟨hsw, hparams, hmark⟩ := step_keeps_swRest_params_mark h
  exact {
    memory := stepKeepsMemoryCanonical s t hs.memory h
    devices := stepKeepsArmedComputedFromHistory s t hs.devices h
    disciplined := stepKeepsTransfersDisciplined s t hs.devices hs.disciplined h
    unmarked := hmark.trans hs.unmarked
    ret := (congrArg Params.ret hparams).trans hs.ret
    swRest := hsw.trans hs.swRest }

/-- Settles O58: `Sound` holds at the launch and every step keeps it. -/
theorem reachableStatesAreSound : Obligations.ReachableStatesAreSound := by
  intro p t hp h
  obtain ⟨hmem, hdev, hdis, hmark, hret, hsw⟩ : Sound p t :=
    h.keeps (Launch.state_sound hp) fun _ _ hu hstep => hu.of_step hstep
  exact ⟨hmem, hdev, hdis, hmark, hret, hsw⟩

/-! ## The placed word -/

/-- A table word stands for what the decoder makes of it as a word. -/
theorem decodeWord_of_decodeTableWord {w : Nat} {i : Instr} (h : decodeTableWord 24 w = some i) :
    decodeWord (BitVec.ofNat 24 (w % 2 ^ 24)) = .ok i := by
  unfold decodeTableWord at h
  generalize BitVec.ofNat 24 (w % 2 ^ 24) = v at h ⊢
  simp only [decodeBytes, wordOfCode_bytes] at h
  cases hd : decodeWord v with
  | error e => simp [hd] at h
  | ok j => simpa [hd] using h

theorem State.withFetchWord_eq_setWord {s : State} {w : Nat} (ha : Admitted s.pc.toNat 3) :
    s.withFetchWord 24 w = s.setWord s.pc.toNat (BitVec.ofNat 24 (w % 2 ^ 24)) := if_pos ha

/-- Settles O46: the placing is a word store at PC, and the fetch reads back the word stored. -/
theorem placedWordIsTheNextInstruction : Obligations.PlacedWordIsTheNextInstruction := by
  intro s w i hm hf hr ha hi
  have hword : (s.setWord s.pc.toNat (BitVec.ofNat 24 (w % 2 ^ 24))).wordAt s.pc.toNat =
      BitVec.ofNat 24 (w % 2 ^ 24) := State.wordAt_setWord hm ha _
  rw [State.withFetchWord_eq_setWord ha]
  refine ⟨?_, rfl, s.byteAt_setWord_other _ _⟩
  exact step_setMem hf hr ha ((congrArg decodeWord hword).trans (decodeWord_of_decodeTableWord hi))

end Sys2Proof.Machine
end
